-- ==== Sys2Proof/Word.lean ====
section
/-! DEFINITION. The two widths the block has (rules R9, R20, R60): bytes in the memories and in CMD, STATUS and ELEM,
16-bit words in the length and cursor registers. -/

namespace Sys2Proof

/-- R9: a byte is an unsigned integer in `0 .. 255`. -/
abbrev Byte := BitVec 8

/-- R5: `LW = 16`, the width of ILEN, OLEN, KLEN and CUR. -/
abbrev Word := BitVec 16

end Sys2Proof
end

