-- ==== Sys2Proof/Config.lean ====
section
/-! DEFINITION. What an implementation of the block fixes (rule R5, decisions D2 and D4), and the one family of free
values: the bytes that nothing has written since a reset (rules R36, R81, behaviour U5). -/

namespace Sys2Proof

/-- R33, R34: the three byte memories. -/
inductive Buffer where
  | ibuf
  | obuf
  | key
deriving DecidableEq, Repr

/-- R5: the parameters of a block. The spec leaves `IN_MAX` and `KEY_MAX` OPEN, arguments of the model; `HAS_VIG` and
`HAS_XOR` are 1 in the block it describes and R95 says what a block without the unit does. A state carries its block's
parameters and no step changes them (log entry 1). -/
structure Params where
  /-- `IN_MAX`, the bytes of IBUF. -/
  inMax  : Nat
  /-- `KEY_MAX`, the bytes of KEY. -/
  keyMax : Nat
  /-- `HAS_VIG`. -/
  hasVig : Bool
  /-- `HAS_XOR`. -/
  hasXor : Bool
deriving DecidableEq, Repr

/-- The block that `State.reset` resets: the largest the spec allows, with both optional units.
DESIGN CHOICE, unsafe (log entry 1): R5 leaves `IN_MAX` and `KEY_MAX` open. -/
def Config.params : Params := { inMax := 65277, keyMax := 65277, hasVig := true, hasXor := true }

/-- U5, a free value: the byte that memory `b` holds at an index nothing has written since the `n`-th reset, "a draw per
byte, fixed once drawn until written". It has no body, so nothing can be proved of its value (log entry 2). -/
opaque Config.unwrittenByte (n : Nat) (b : Buffer) (index : Nat) : Byte

end Sys2Proof
end

