-- ==== Sys2Proof/Syntax.lean ====
section
/-! DEFINITION. The eleven commands of the opcode map (rule R93). A command word is all opcode (R90) and its operands are
implicit (R91), so no constructor has a field. -/

namespace Sys2Proof

/-- R93: the commands, one constructor for each row of the opcode map, in its order. -/
inductive Instr where
  /-- `0x01` COBS_ENC, R122. -/
  | cobsEnc
  /-- `0x02` COBS_DEC, R141. -/
  | cobsDec
  /-- `0x03` KSF_SET, R162. -/
  | ksfSet
  /-- `0x04` KSF_RST, R164. -/
  | ksfRst
  /-- `0x05` KSF_GET, R166. -/
  | ksfGet
  /-- `0x06` VIG_SETPW, R180. -/
  | vigSetpw
  /-- `0x07` VIG_RSTIDX, R181. -/
  | vigRstidx
  /-- `0x08` VIG_ENC, R182. -/
  | vigEnc
  /-- `0x09` VIG_DEC, R183. -/
  | vigDec
  /-- `0x0A` XOR_ENC, R200. -/
  | xorEnc
  /-- `0x0B` XOR_DEC, R201. -/
  | xorDec
deriving DecidableEq, Repr

end Sys2Proof
end

