-- ==== Sys2Proof/WellFormed.lean ====
section
/-! DEFINITION. What makes a parameter set legal (rule R5) and a command well formed in a block (rules R93, R95). -/

namespace Sys2Proof

/-- R5: `1 <= IN_MAX <= 65277` and `1 <= KEY_MAX <= IN_MAX`. -/
def Params.legal (p : Params) : Bool :=
  decide (1 ≤ p.inMax) && decide (p.inMax ≤ 65277) && decide (1 ≤ p.keyMax) && decide (p.keyMax ≤ p.inMax)

/-- R95: a command is well formed in a block that has its unit. ENC, DEC and KSF are always present. -/
def Instr.wellFormed (p : Params) : Instr → Bool
  | .cobsEnc | .cobsDec | .ksfSet | .ksfRst | .ksfGet => true
  | .vigSetpw | .vigRstidx | .vigEnc | .vigDec => p.hasVig
  | .xorEnc | .xorDec => p.hasXor

end Sys2Proof
end

