-- ==== Sys2Proof/Decode.lean ====
section
/-! DEFINITION. The decoder of the command word (rules R90, R93, R94, R95, R98) and the encoder. -/

namespace Sys2Proof

/-- Why a command word selects no command. Either reason ends the command with IllegalCommand (R98). -/
inductive Rejection where
  /-- R98: `0x00` and `0x0C` to `0xFF` select no command. -/
  | reservedOpcode
  /-- R95: the opcode of a unit that the block was built without. -/
  | absentUnit
deriving DecidableEq, Repr

/-- R93: the opcode map, read from the opcode. -/
def opcodeMap (opcode : Nat) : Option Instr :=
  match opcode with
  | 0x01 => some .cobsEnc
  | 0x02 => some .cobsDec
  | 0x03 => some .ksfSet
  | 0x04 => some .ksfRst
  | 0x05 => some .ksfGet
  | 0x06 => some .vigSetpw
  | 0x07 => some .vigRstidx
  | 0x08 => some .vigEnc
  | 0x09 => some .vigDec
  | 0x0A => some .xorEnc
  | 0x0B => some .xorDec
  | _ => none

/-- R94, R95: the command that the word `v` selects in a block with parameters `p`. -/
def decode (p : Params) (v : Byte) : Except Rejection Instr :=
  match opcodeMap v.toNat with
  | none => .error .reservedOpcode
  | some i => if i.wellFormed p then .ok i else .error .absentUnit

/-- R93: the opcode of a command, its whole word (R90). -/
def encode : Instr → Byte
  | .cobsEnc => 0x01
  | .cobsDec => 0x02
  | .ksfSet => 0x03
  | .ksfRst => 0x04
  | .ksfGet => 0x05
  | .vigSetpw => 0x06
  | .vigRstidx => 0x07
  | .vigEnc => 0x08
  | .vigDec => 0x09
  | .xorEnc => 0x0A
  | .xorDec => 0x0B

/-- The command word of a row of the opcode table given as its low `nbits` bits: every command word is 8 bits (R90), and
the bits the table does not give are 0. -/
def tableWord (nbits w : Nat) : Byte := BitVec.ofNat 8 (w % 2 ^ min nbits 8)

/-- The command that the decoder reads from the word `w` of an opcode-table row of `nbits` bits, in the block the spec
describes (both optional units present, R5). -/
def decodeTableWord (nbits w : Nat) : Option Instr :=
  match decode Config.params (tableWord nbits w) with
  | .ok i => some i
  | .error _ => none

end Sys2Proof
end

