-- ==== Sys2Proof/Machine/State.lean ====
section
/-! DEFINITION. The state of the block: the seven registers and three byte memories of rule R20, and beside them what the
model needs to be one deterministic machine (the block's parameters, the host's pending accesses, the value last returned
to the host, the number of resets). The reasons a step can stop. The state after reset (rule R36). -/

namespace Sys2Proof.Machine

/-- A byte memory (R33, R34): the bytes written since the last reset, in rising order of index. An index that is not listed
has no written value; reading it gives a free value (U5, `State.byteAt`). -/
abbrev Mem := List Host.Cell

/-- The canonical form of a byte memory: the indices rise strictly. No entry equals what an unlisted index holds, because
an unlisted index holds no written value (log entry 2). -/
def Mem.wf : Mem → Bool
  | [] => true
  | [_] => true
  | c :: d :: rest => decide (c.1 < d.1) && Mem.wf (d :: rest)

/-- R210: the error kinds, "a tagged error-kind enumeration". -/
inductive ErrorKind where
  /-- Code 1. R212: reserved, no step raises it. -/
  | typeMismatch
  /-- Code 2. The new key is empty. -/
  | invalidArgument
  /-- Code 3. R212: reserved, no step raises it. -/
  | invalidEncoding
  /-- Code 4. The feeder is uninitialized. -/
  | notInitialized
  /-- Code 5. A zero byte lies between two non-zero bytes of the decoder's operand. -/
  | malformedInput
  /-- Code 6. The value written to CMD is not an assigned opcode. -/
  | illegalCommand
  /-- Code 7. The operand does not fit IBUF, or the new key does not fit KEY. -/
  | lengthError
deriving DecidableEq, Repr

/-- The stored fields of the register STATUS (R24). KRDY is not stored: it is a function of KLEN (R35) and
`State.statusWord` computes it. -/
structure Status where
  /-- Bit 0, BUSY: a command is running. -/
  busy  : Bool
  /-- Bit 1, DONE: the most recent command ended without error. -/
  done  : Bool
  /-- Bit 2, ERR: the most recent command ended with an error. -/
  err   : Bool
  /-- Bits 7:4, ECODE: the code of the error kind (R210) when ERR is 1, else 0. -/
  ecode : BitVec 4
deriving DecidableEq, Repr

/-- R60: the four address spaces. -/
inductive Space where
  /-- REG, addressed by register number. -/
  | reg
  /-- IBUF, OBUF or KEY, addressed by byte index. -/
  | bytes (b : Buffer)
deriving DecidableEq, Repr

/-- What the outside can do to the block: the host's two primitives (R7, R62, R63) and the platform's reset (R240). -/
inductive HostAction where
  /-- R62: `HostWrite(space, addr, v)`. -/
  | write (space : Space) (addr v : Nat)
  /-- R63: `HostRead(space, addr)`. -/
  | read (space : Space) (addr : Nat)
  /-- R240: the one kind of reset, asserted by the platform. -/
  | reset
deriving DecidableEq, Repr

/-- Why the machine stops with a fault. No error kind of the spec is here: those are recorded in STATUS and the machine
goes on (R218). -/
inductive Fault where
  /-- A command addressed the byte memory `b` at an index it does not have (R33, R34, R60). R80 derives that no command
  does, so only a state that breaks the invariant `BlockInv` can lead here. Raised by the key fetch and by the stores of a
  result and of a key. SAFE: it only stops the machine. -/
  | noSuchByte (b : Buffer) (index : Nat)
deriving DecidableEq, Repr

/-- Why a step has no meaning. Each but the first is an access of the host that the spec tells a model to refuse; all are
SAFE: they only stop the machine. -/
inductive Refusal where
  /-- Raised by an arm of `exec` for a command that has no meaning yet. SAFE. -/
  | notModelled (mnemonic : String)
  /-- R246, U4: a host access other than a read of STATUS while BUSY is 1. Raised by the host's port. SAFE. -/
  | busyExclusion
  /-- R65, U6: a register number `>= 7`, an index outside a byte memory, or the KEY space. Raised by the host's port. SAFE. -/
  | noSuchLocation
  /-- R66, U6: a host write to a read-only location. Raised by the host's port. SAFE. -/
  | notWritable
  /-- R62: a value wider than the location written, which no row of R62's table admits. Raised by the host's port. SAFE. -/
  | valueTooWide
deriving DecidableEq, Repr

/-- The state of the block and of what surrounds it. -/
structure State where
  /-- R23: CMD, register 0, the value most recently written to it. -/
  cmd      : Byte
  /-- R24: STATUS, register 1, less KRDY. -/
  status   : Status
  /-- R25: ILEN, register 2, the length of the operand. -/
  ilen     : Word
  /-- R26: OLEN, register 3, the length of the result. -/
  olen     : Word
  /-- R27: KLEN, register 4, the length of the stored key; 0 is the feeder state "uninitialized". -/
  klen     : Word
  /-- R28: CUR, register 5, the feeder's cursor. -/
  cur      : Word
  /-- R29: ELEM, register 6, the value of the most recent successful KSF_GET. -/
  elem     : Byte
  /-- R33: IBUF. -/
  ibuf     : Mem
  /-- R33: OBUF. -/
  obuf     : Mem
  /-- R34: KEY. -/
  key      : Mem
  /-- R5: the block's parameters (log entry 1). The model's own field: no step changes it. -/
  cfg      : Params
  /-- The resets so far, which index the free values of the memories (U5, U10; log entry 2). The model's own field. -/
  resets   : Nat
  /-- R73 (e): the host's accesses still to come, in the order it issues them (log entry 3). The model's own field. -/
  inputs   : List HostAction
  /-- R63: the value that the most recent `HostRead` returned to the host (log entry 4). The model's own field. -/
  returned : Option Word
deriving DecidableEq, Repr

/-- R24, R36: STATUS with every field 0. -/
def Status.clear : Status := { busy := false, done := false, err := false, ecode := 0 }

/-- R36: the state after reset of a block with parameters `p` that has been reset `n` times before. All seven registers
are 0 and no byte of the memories has a written value. -/
def State.afterReset (p : Params) (n : Nat) (inputs : List HostAction) (returned : Option Word) : State :=
  { cmd := 0, status := Status.clear, ilen := 0, olen := 0, klen := 0, cur := 0, elem := 0,
    ibuf := [], obuf := [], key := [], cfg := p, resets := n, inputs := inputs, returned := returned }

/-- R36: the block right after its first reset, with nothing yet asked of it by the host. -/
def State.reset : State := State.afterReset Config.params 0 [] none

end Sys2Proof.Machine
end

