-- ==== Sys2Proof/Machine/Flags.lean ====
section
/-! DEFINITION. STATUS: the codes of the error kinds (rule R210), the word the host reads (R24), and what the start and
the two ends of a command do to its fields (R96, R97, R218). The block has no arithmetic flags (R35). -/

namespace Sys2Proof.Machine

/-- R210: the ECODE of an error kind. -/
def ErrorKind.code : ErrorKind → BitVec 4
  | .typeMismatch => 1
  | .invalidArgument => 2
  | .invalidEncoding => 3
  | .notInitialized => 4
  | .malformedInput => 5
  | .illegalCommand => 6
  | .lengthError => 7

/-- R96: STATUS as the start of a command leaves it. -/
def Status.started : Status := { busy := true, done := false, err := false, ecode := 0 }

/-- R97: the successful end of a command. ERR and ECODE stay as they are. -/
def Status.finish (f : Status) : Status := { f with done := true, busy := false }

/-- R218: the failing end of a command with error kind `k`. -/
def Status.fail (k : ErrorKind) : Status := { busy := false, done := false, err := true, ecode := k.code }

/-- R24, R35: KRDY, "`KRDY = 1` exactly when `x[KLEN] != 0`". -/
def State.krdy (s : State) : Bool := decide (s.klen ≠ 0)

/-- R24: the word a read of STATUS returns: bit 0 BUSY, 1 DONE, 2 ERR, 3 KRDY, 7:4 ECODE. -/
def State.statusWord (s : State) : Byte :=
  s.status.ecode ++ (BitVec.ofBool s.krdy ++ (BitVec.ofBool s.status.err ++
    (BitVec.ofBool s.status.done ++ BitVec.ofBool s.status.busy)))

end Sys2Proof.Machine
end

