-- ==== Sys2Proof/Machine/Ops.lean ====
section
/-! DEFINITION. The named operations over the byte memories (rules R12, R33, R34, R60), the common start of every command
(R96), and its two ends: `done` (R97) and `raise` (R218), which is how this block takes an exception. There is no return
from one: the next command's start clears the error (R223). -/

namespace Sys2Proof.Machine

/-! ### Byte memories -/

/-- The bytes `bytes` as cells at `start`, `start + 1`, and so on. -/
def cellsFrom (start : Nat) : List Byte → Mem
  | [] => []
  | b :: bs => (start, b) :: cellsFrom (start + 1) bs

/-- The value last written at `index`, where there is one. -/
def Mem.written (m : Mem) (index : Nat) : Option Byte :=
  match m with
  | [] => none
  | c :: rest => if c.1 = index then some c.2 else Mem.written rest index

/-- `MemWrite` of R12 at `start`, `start + 1`, and so on: the memory with `bytes` stored there and every other byte as it
was. -/
def Mem.store (m : Mem) (start : Nat) (bytes : List Byte) : Mem :=
  m.filter (fun c => decide (c.1 < start)) ++ cellsFrom start bytes ++
    m.filter (fun c => decide (start + bytes.length ≤ c.1))

/-- R6: `OUT_MAX = IN_MAX + (IN_MAX div 254) + 1`. -/
def outMax (p : Params) : Nat := p.inMax + p.inMax / 254 + 1

/-- R5, R33, R34: the number of bytes of a byte memory. -/
def bufferSize (p : Params) : Buffer → Nat
  | .ibuf => p.inMax
  | .obuf => outMax p
  | .key => p.keyMax

/-- The contents of a byte memory. -/
def State.mem (s : State) : Buffer → Mem
  | .ibuf => s.ibuf
  | .obuf => s.obuf
  | .key => s.key

/-- `MemRead(b:index, 1)` of R12: the byte written there, else the free value of U5. -/
def State.byteAt (s : State) (b : Buffer) (index : Nat) : Byte :=
  ((s.mem b).written index).getD (Config.unwrittenByte s.resets b index)

/-- The first `n` bytes of a byte memory, `b[0 .. n)` of R11. -/
def State.bytesOf (s : State) (b : Buffer) (n : Nat) : List Byte :=
  (List.range n).map (s.byteAt b)

/-! ### What each command reads and writes -/

/-- R93, column "reads IBUF". -/
def readsIbuf : Instr → Bool
  | .cobsEnc | .cobsDec | .ksfSet | .vigSetpw | .vigEnc | .vigDec | .xorEnc | .xorDec => true
  | .ksfRst | .ksfGet | .vigRstidx => false

/-- R93, column "writes OBUF, OLEN"; R26: the six buffer-producing commands. -/
def producesBuffer : Instr → Bool
  | .cobsEnc | .cobsDec | .vigEnc | .vigDec | .xorEnc | .xorDec => true
  | .ksfSet | .ksfRst | .ksfGet | .vigSetpw | .vigRstidx => false

/-! ### The start and the ends of a command -/

/-- R96: the first two lines of the command start, for the word `v` written to CMD. -/
def State.start (v : Byte) (s : State) : State :=
  { s with cmd := v, status := Status.started }

/-- R97: `done`. -/
def State.done (s : State) : State :=
  { s with status := s.status.finish }

/-- R218: `raise K` in the command `i`. OLEN becomes 0 when the command is a buffer-producing one. -/
def State.raise (i : Instr) (k : ErrorKind) (s : State) : State :=
  { s with olen := if producesBuffer i then 0 else s.olen, status := Status.fail k }

/-- R98, R218: the whole effect of a word written to CMD that selects no command. -/
def State.illegalCommand (v : Byte) (s : State) : State :=
  { s.start v with status := Status.fail .illegalCommand }

/-- R96: the command `i` whole. After the start, a command that reads IBUF ends with LengthError when its operand does not
fit (R216 (a)); otherwise `body`, the command's own rule, runs. -/
def runCommand (i : Instr) (body : State → Except Fault State) (s : State) : Host.Outcome State Fault Refusal :=
  let started := s.start (encode i)
  if readsIbuf i && decide (s.cfg.inMax < s.ilen.toNat) then
    .next (started.raise i .lengthError)
  else
    match body started with
    | .ok t => .next t
    | .error f => .fault f

end Sys2Proof.Machine
end

