-- ==== Sys2Proof/Machine/Operands.lean ====
section
/-! DEFINITION. The implicit operands of the commands (rule R91): the input buffer, the returned buffer, and the host's
half of it, loading an operand and taking a result back (R109). -/

namespace Sys2Proof.Machine

/-- R91: the input buffer, `IBUF[0 .. x[ILEN])`. -/
def State.operand (s : State) : List Byte := s.bytesOf .ibuf s.ilen.toNat

/-- R91: the returned buffer, `OBUF[0 .. x[OLEN])`. -/
def State.result (s : State) : List Byte := s.bytesOf .obuf s.olen.toNat

/-- R161: the stored key, `KEY[0 .. x[KLEN])`. -/
def State.storedKey (s : State) : List Byte := s.bytesOf .key s.klen.toNat

/-- R96: the state with the result `t` of a command in `OBUF[0 .. len(t))` and its length in OLEN. -/
def State.withResult (t : List Byte) (s : State) : State :=
  { s with obuf := s.obuf.store 0 t, olen := BitVec.ofNat 16 t.length }

/-- R96, R60: the result of a command stored, when OBUF has the bytes for it. -/
def storeResult (t : List Byte) (s : State) : Except Fault State :=
  if t.length ≤ outMax s.cfg then .ok (s.withResult t)
  else
    .error (.noSuchByte .obuf (outMax s.cfg))

/-- R96: a command whose result is `r`: a value is stored and the command is done, an error kind is raised. -/
def deliver (i : Instr) (r : Except ErrorKind (List Byte)) (s : State) : Except Fault State :=
  match r with
  | .error k => .ok (s.raise i k)
  | .ok t =>
    match storeResult t s with
    | .ok u => .ok u.done
    | .error f => .error f

/-- R109: what `LOAD` leaves of the block, the operand `bytes` at the start of IBUF and its length in ILEN. -/
def State.load (bytes : List Byte) (s : State) : State :=
  { s with ibuf := s.ibuf.store 0 bytes, ilen := BitVec.ofNat 16 bytes.length }

/-- R109: what `FEEDBACK` leaves of the block, the result loaded as the next operand. -/
def State.feedback (s : State) : State := s.load s.result

end Sys2Proof.Machine
end

