-- ==== Sys2Proof/Machine/Cobs.lean ====
section
/-! DEFINITION. The ENC and DEC units: the functions of rules R120, R121 and R140, and the commands COBS_ENC (R122) and
COBS_DEC (R141) over them. The byte-at-a-time pseudocode of the two commands is in Machine/CobsWalk.lean. -/

namespace Sys2Proof.Machine

/-! ### The encoder -/

/-- R120: the segments of a buffer. Each zero byte ends one segment and starts the next, so `k` zeros give `k + 1`. -/
def segments : List Byte → List (List Byte)
  | [] => [[]]
  | b :: bs =>
    if b = 0 then [] :: segments bs
    else
      match segments bs with
      | [] => [[b]]
      | seg :: rest => (b :: seg) :: rest

/-- R121: `count` full blocks, each the code byte 255 and the next 254 literal bytes of `seg`. -/
def fullBlocks : Nat → List Byte → List Byte
  | 0, _ => []
  | count + 1, seg => 255 :: seg.take 254 ++ fullBlocks count (seg.drop 254)

/-- R121: what a segment emits; `last` says that it is the last one of the buffer. -/
def emitSegment (last : Bool) (seg : List Byte) : List Byte :=
  let full := seg.length / 254
  let remainder := seg.length % 254
  if seg.length = 0 then [1]
  else
    fullBlocks full seg ++
      (if remainder ≠ 0 then BitVec.ofNat 8 (remainder + 1) :: seg.drop (254 * full)
       else if last then [] else [1])

/-- R121: what the segments emit, in order. -/
def emitSegments : List (List Byte) → List Byte
  | [] => []
  | [seg] => emitSegment true seg
  | seg :: next :: rest => emitSegment false seg ++ emitSegments (next :: rest)

/-- R121: `cobs_encode(s)`. -/
def cobsEncode (s : List Byte) : List Byte := emitSegments (segments s)

/-- R122: COBS_ENC. -/
def execCobsEnc (s : State) : Host.Outcome State Fault Refusal :=
  runCommand .cobsEnc (fun u => deliver .cobsEnc (.ok (cobsEncode u.operand)) u) s

/-! ### The decoder -/

/-- R140, step 1: the buffer without its leading and trailing zero bytes. -/
def stripZeros (y : List Byte) : List Byte :=
  ((y.dropWhile (· == 0)).reverse.dropWhile (· == 0)).reverse

/-- R140, step 3: the walk. A block is a code byte `c` and the `c - 1` bytes after it, or what is left of them (R146); a
zero is restored after it when `c < 255` and bytes remain (R145). `fuel` bounds the number of blocks; the length of the
buffer is enough. -/
def walkBlocks : Nat → List Byte → List Byte
  | _, [] => []
  | 0, _ :: _ => []
  | fuel + 1, c :: rest =>
    let remaining := rest.drop (c.toNat - 1)
    rest.take (c.toNat - 1) ++ (if c.toNat < 255 ∧ remaining ≠ [] then [0] else []) ++ walkBlocks fuel remaining

/-- R140: `cobs_decode(y)`: strip, check, walk. -/
def cobsDecode (y : List Byte) : Except ErrorKind (List Byte) :=
  let w := stripZeros y
  if w.contains 0 then .error .malformedInput else .ok (walkBlocks w.length w)

/-- R141: COBS_DEC. -/
def execCobsDec (s : State) : Host.Outcome State Fault Refusal :=
  runCommand .cobsDec (fun u => deliver .cobsDec (cobsDecode u.operand) u) s

end Sys2Proof.Machine
end

