-- ==== Sys2Proof/Machine/Feeder.lean ====
section
/-! DEFINITION. The KSF unit: the feeder's operations (rules R160, R161, R184) and the commands KSF_SET (R162), KSF_RST
(R164) and KSF_GET (R166). The Vigenère unit acts on the same feeder (R42). -/

namespace Sys2Proof.Machine

/-- R162: the state with the owned copy `k` in `KEY[0 .. len(k))`, its length in KLEN and the cursor 0. -/
def State.withKey (k : List Byte) (s : State) : State :=
  { s with key := s.key.store 0 k, klen := BitVec.ofNat 16 k.length, cur := 0 }

/-- R162, R60: the key stored, when KEY has the bytes for it. -/
def storeKey (k : List Byte) (s : State) : Except Fault State :=
  if k.length ≤ s.cfg.keyMax then .ok (s.withKey k)
  else .error (.noSuchByte .key s.cfg.keyMax)

/-- R162: `setContent`, the body of the command `i`: InvalidArgument for an empty key, then LengthError for one that does
not fit KEY (R216 (b), R220), else the key is replaced. -/
def setContent (i : Instr) (s : State) : Except Fault State :=
  if s.ilen.toNat = 0 then .ok (s.raise i .invalidArgument)
  else if s.cfg.keyMax < s.ilen.toNat then .ok (s.raise i .lengthError)
  else
    match storeKey s.operand s with
    | .ok t => .ok t.done
    | .error f => .error f

/-- R28: the state with the cursor at `c`. -/
def State.withCursor (c : Word) (s : State) : State := { s with cur := c }

/-- R29: the state with the element `v` in ELEM. -/
def State.withElem (v : Byte) (s : State) : State := { s with elem := v }

/-- R164: `resetCursor`, "sets cursor to 0; no other effect". -/
def State.resetCursor (s : State) : State := s.withCursor 0

/-- R166, R184: the cursor moved on by one, wrapping to 0 at the length of the key. -/
def State.advanceCursor (s : State) : State :=
  s.withCursor (if s.cur.toNat + 1 = s.klen.toNat then 0 else s.cur + 1)

/-- R184: `next_key()`: the byte of KEY at the cursor, and the state with the cursor moved on. -/
def nextKey (s : State) : Except Fault (Byte × State) :=
  if s.cur.toNat < s.cfg.keyMax then .ok (s.byteAt .key s.cur.toNat, s.advanceCursor)
  else .error (.noSuchByte .key s.cur.toNat)

/-- R166: `getElement`, the body of KSF_GET. -/
def getElement (i : Instr) (s : State) : Except Fault State :=
  if s.klen = 0 then .ok (s.raise i .notInitialized)
  else
    match nextKey s with
    | .ok (k, t) => .ok (t.withElem k).done
    | .error f => .error f

/-- R162: KSF_SET. -/
def execKsfSet (s : State) : Host.Outcome State Fault Refusal :=
  runCommand .ksfSet (setContent .ksfSet) s

/-- R164: KSF_RST. -/
def execKsfRst (s : State) : Host.Outcome State Fault Refusal :=
  runCommand .ksfRst (fun u => .ok u.resetCursor.done) s

/-- R166: KSF_GET. -/
def execKsfGet (s : State) : Host.Outcome State Fault Refusal :=
  runCommand .ksfGet (getElement .ksfGet) s

end Sys2Proof.Machine
end

