-- ==== Sys2Proof/Machine/Vigenere.lean ====
section
/-! DEFINITION. The VIG unit: the commands VIG_SETPW (rule R180), VIG_RSTIDX (R181), VIG_ENC (R182) and VIG_DEC (R183). -/

namespace Sys2Proof.Machine

/-- R182, R183: the loop over the operand: each byte is combined with the keystream byte that `next_key()` gives for it.
Gives the output bytes and the state with the cursor moved on. -/
def scramble (combine : Byte → Byte → Byte) : List Byte → State → Except Fault (List Byte × State)
  | [], s => .ok ([], s)
  | b :: bs, s =>
    match nextKey s with
    | .error f => .error f
    | .ok (k, t) =>
      match scramble combine bs t with
      | .error f => .error f
      | .ok (out, u) => .ok (combine b k :: out, u)

/-- R182, R183: the body of VIG_ENC and VIG_DEC. NotInitialized is tested once, before any byte and whatever the data. -/
def vigenere (i : Instr) (combine : Byte → Byte → Byte) (s : State) : Except Fault State :=
  if s.klen = 0 then .ok (s.raise i .notInitialized)
  else
    match scramble combine s.operand s with
    | .error f => .error f
    | .ok (out, t) => deliver i (.ok out) t

/-- R180: VIG_SETPW. -/
def execVigSetpw (s : State) : Host.Outcome State Fault Refusal :=
  runCommand .vigSetpw (setContent .vigSetpw) s

/-- R181: VIG_RSTIDX. -/
def execVigRstidx (s : State) : Host.Outcome State Fault Refusal :=
  runCommand .vigRstidx (fun u => .ok u.resetCursor.done) s

/-- R182: VIG_ENC, `(byte + keystreamByte) mod 256`. -/
def execVigEnc (s : State) : Host.Outcome State Fault Refusal :=
  runCommand .vigEnc (vigenere .vigEnc (fun b k => b + k)) s

/-- R183: VIG_DEC, `(byte - keystreamByte) mod 256`. -/
def execVigDec (s : State) : Host.Outcome State Fault Refusal :=
  runCommand .vigDec (vigenere .vigDec (fun b k => b - k)) s

end Sys2Proof.Machine
end

