-- ==== Sys2Proof/Machine/Xor.lean ====
section
/-! DEFINITION. The XOR unit: the commands XOR_ENC (rule R200) and XOR_DEC (R201). -/

namespace Sys2Proof.Machine

/-- R202, R204: `xor_mask`, every byte exclusive-or the fixed mask 255. -/
def xorMask (s : List Byte) : List Byte := s.map (fun b => b ^^^ 255)

/-- R200: XOR_ENC. -/
def execXorEnc (s : State) : Host.Outcome State Fault Refusal :=
  runCommand .xorEnc (fun u => deliver .xorEnc (.ok (xorMask u.operand)) u) s

/-- R201: XOR_DEC. -/
def execXorDec (s : State) : Host.Outcome State Fault Refusal :=
  runCommand .xorDec (fun u => deliver .xorDec (.ok (xorMask u.operand)) u) s

end Sys2Proof.Machine
end

