-- ==== Sys2Proof/Machine/Dispatch.lean ====
section
/-! DEFINITION. The commands' meanings, one arm a command (rule R93). A meaning is the whole command: its start (R96), its
own rule, and its end (R97 or R218). -/

namespace Sys2Proof.Machine

def exec (i : Instr) (s : State) : Host.Outcome State Fault Refusal :=
  match i with
  | .cobsEnc => Sys2Proof.Machine.execCobsEnc s
  | .cobsDec => Sys2Proof.Machine.execCobsDec s
  | .ksfSet => Sys2Proof.Machine.execKsfSet s
  | .ksfRst => Sys2Proof.Machine.execKsfRst s
  | .ksfGet => Sys2Proof.Machine.execKsfGet s
  | .vigSetpw => Sys2Proof.Machine.execVigSetpw s
  | .vigRstidx => Sys2Proof.Machine.execVigRstidx s
  | .vigEnc => Sys2Proof.Machine.execVigEnc s
  | .vigDec => Sys2Proof.Machine.execVigDec s
  | .xorEnc => Sys2Proof.Machine.execXorEnc s
  | .xorDec => Sys2Proof.Machine.execXorDec s

end Sys2Proof.Machine
end

