-- ==== Sys2Proof/Machine/HostPort.lean ====
section
/-! DEFINITION. The host's port: `HostWrite` (rule R62), `HostRead` (R63), what they refuse (R65, R66, R73, R246), and the
platform's reset (R240). -/

namespace Sys2Proof.Machine

/-- R96: a word written to CMD. The command it selects runs to its end; a word that selects none ends with
IllegalCommand (R98). -/
def writeCmd (v : Byte) (s : State) : Host.Outcome State Fault Refusal :=
  match decode s.cfg v with
  | .ok i => exec i s
  | .error _ => .next (s.illegalCommand v)

/-- R62: `HostWrite(space, addr, v)`. -/
def hostWrite (space : Space) (addr v : Nat) (s : State) : Host.Outcome State Fault Refusal :=
  if s.status.busy then .refused .busyExclusion
  else
    match space with
    | .reg =>
      if addr = 0 then
        if v < 256 then writeCmd (BitVec.ofNat 8 v) s else .refused .valueTooWide
      else if addr = 2 then
        if v < 65536 then .next { s with ilen := BitVec.ofNat 16 v } else .refused .valueTooWide
      else if addr < 7 then .refused .notWritable
      else .refused .noSuchLocation
    | .bytes .ibuf =>
      if addr < s.cfg.inMax then
        if v < 256 then .next { s with ibuf := s.ibuf.store addr [BitVec.ofNat 8 v] } else .refused .valueTooWide
      else .refused .noSuchLocation
    | .bytes .obuf =>
      if addr < outMax s.cfg then .refused .notWritable else .refused .noSuchLocation
    | .bytes .key => .refused .noSuchLocation

/-- R63, R20: the value a read of register `r` returns, 8-bit registers in the low byte. -/
def registerValue (s : State) (r : Nat) : Option Word :=
  match r with
  | 0 => some (s.cmd.setWidth 16)
  | 1 => some (s.statusWord.setWidth 16)
  | 2 => some s.ilen
  | 3 => some s.olen
  | 4 => some s.klen
  | 5 => some s.cur
  | 6 => some (s.elem.setWidth 16)
  | _ => none

/-- R63: what a location returns to a host read; none for a location that R65 refuses. -/
def hostValue (s : State) (space : Space) (addr : Nat) : Option Word :=
  match space with
  | .reg => registerValue s addr
  | .bytes .ibuf => if addr < s.cfg.inMax then some ((s.byteAt .ibuf addr).setWidth 16) else none
  | .bytes .obuf => if addr < outMax s.cfg then some ((s.byteAt .obuf addr).setWidth 16) else none
  | .bytes .key => none

/-- R63: `HostRead(space, addr)`. It changes no state of the block; STATUS may be read while BUSY is 1 (R73 (b)). -/
def hostRead (space : Space) (addr : Nat) (s : State) : Host.Outcome State Fault Refusal :=
  if s.status.busy ∧ ¬ (space = .reg ∧ addr = 1) then .refused .busyExclusion
  else
    match hostValue s space addr with
    | some v => .next { s with returned := some v }
    | none => .refused .noSuchLocation

/-- R240: reset, at any time. The block is as R36 says and its memories hold no written byte; the bytes they now hold are
new free values (U10). What the host has yet to ask and what it was told are not the block's and stay. -/
def platformReset (s : State) : Host.Outcome State Fault Refusal :=
  .next (State.afterReset s.cfg (s.resets + 1) s.inputs s.returned)

/-- R7: one action from outside. -/
def hostAct (a : HostAction) (s : State) : Host.Outcome State Fault Refusal :=
  match a with
  | .write space addr v => hostWrite space addr v s
  | .read space addr => hostRead space addr s
  | .reset => platformReset s

end Sys2Proof.Machine
end

