-- ==== Sys2Proof/Machine/Step.lean ====
section
/-! DEFINITION. One step of the machine: the host's next access takes effect (rule R73 (e)), and a write to CMD runs its
whole command (R255). With no access to come the block is idle with all state held (R228). -/

namespace Sys2Proof.Machine

/-- One step: the oldest pending action of the host, or nothing. -/
def step (s : State) : Host.Outcome State Fault Refusal :=
  match s.inputs with
  | [] => .next s
  | a :: rest => hostAct a { s with inputs := rest }

/-- The block fetches nothing (R77): its next command is the word the host writes to CMD. So the word stands as the host's
next action, a write of it to CMD, before whatever the host had pending. In a state with BUSY 0 the next step runs it. -/
def State.withFetchWord (s : State) (nbits w : Nat) : State :=
  { s with inputs := .write .reg 0 (tableWord nbits w).toNat :: s.inputs }

end Sys2Proof.Machine
end

