-- ==== Sys2Proof/Machine/CobsWalk.lean ====
section
/-! DEFINITION. The COBS commands a second and third time, beside the definitions that the machine runs: the byte-at-a-time
pseudocode of rules R122 and R141, which R8 requires to agree with the functions of Machine/Cobs.lean, and the single-pass
encoder of R130. Nothing in the machine calls this file; statements compare it with what the machine does. -/

namespace Sys2Proof.Machine

/-! ### The pseudocode of R122 -/

/-- `OBUF[o] <- v ; o <- o + 1`, on the pair of OBUF's contents and `o`. -/
def emitByte (v : Byte) (out : Mem × Nat) : Mem × Nat := (out.1.store out.2 [v], out.2 + 1)

/-- `count` times `OBUF[o] <- IBUF[p] ; o <- o + 1 ; p <- p + 1`. -/
def copyBytes (s : State) : Nat → Nat → Mem × Nat → Mem × Nat
  | 0, _, out => out
  | count + 1, p, out => copyBytes s count (p + 1) (emitByte (s.byteAt .ibuf p) out)

/-- R122, the loop over the full blocks of a segment, from `IBUF[p]` on. -/
def copyFullBlocks (s : State) : Nat → Nat → Mem × Nat → Mem × Nat
  | 0, _, out => out
  | count + 1, p, out => copyFullBlocks s count (p + 254) (copyBytes s 254 p (emitByte 255 out))

/-- R122: `while j < n and IBUF[j] != 0: j <- j + 1`, at most `fuel` times. -/
def segmentEnd (s : State) (n : Nat) : Nat → Nat → Nat
  | 0, j => j
  | fuel + 1, j => if j < n ∧ s.byteAt .ibuf j ≠ 0 then segmentEnd s n fuel (j + 1) else j

/-- R122: what one pass of the loop emits for the segment `IBUF[i .. j)`. -/
def emitRange (s : State) (last : Bool) (i j : Nat) (out : Mem × Nat) : Mem × Nat :=
  let len := j - i
  if len = 0 then emitByte 1 out
  else
    let full := copyFullBlocks s (len / 254) i out
    if len % 254 ≠ 0 then
      copyBytes s (len % 254) (i + 254 * (len / 254)) (emitByte (BitVec.ofNat 8 (len % 254 + 1)) full)
    else if last then full
    else emitByte 1 full

/-- R122: the loop, one pass a segment, at most `fuel` passes, from `IBUF[i]` on. -/
def encodeLoop (s : State) (n : Nat) : Nat → Nat → Mem × Nat → Mem × Nat
  | 0, _, out => out
  | fuel + 1, i, out =>
    let j := segmentEnd s n (n - i) i
    if j = n then emitRange s true i j out
    else encodeLoop s n fuel (j + 1) (emitRange s false i j out)

/-- R122: the pseudocode of COBS_ENC, after the common start. -/
def encodeWalk (s : State) : State :=
  let n := s.ilen.toNat
  let out := encodeLoop s n (n + 1) 0 (s.obuf, 0)
  State.done { s with obuf := out.1, olen := BitVec.ofNat 16 out.2 }

/-! ### The pseudocode of R141 -/

/-- R141: `while a < n and IBUF[a] = 0: a <- a + 1`, at most `fuel` times. -/
def skipLeading (s : State) (n : Nat) : Nat → Nat → Nat
  | 0, a => a
  | fuel + 1, a => if a < n ∧ s.byteAt .ibuf a = 0 then skipLeading s n fuel (a + 1) else a

/-- R141: `while e > a and IBUF[e-1] = 0: e <- e - 1`. -/
def skipTrailing (s : State) (a : Nat) : Nat → Nat
  | 0 => 0
  | e + 1 => if a < e + 1 ∧ s.byteAt .ibuf e = 0 then skipTrailing s a e else e + 1

/-- R141: the walk from `IBUF[p]` to `IBUF[e)`, at most `fuel` passes. -/
def decodeLoop (s : State) (e : Nat) : Nat → Nat → Mem × Nat → Mem × Nat
  | 0, _, out => out
  | fuel + 1, p, out =>
    if p < e then
      let c := (s.byteAt .ibuf p).toNat
      let m := if 1 < c then min (c - 1) (e - (p + 1)) else 0
      let q := p + 1 + m
      let copied := copyBytes s m (p + 1) out
      decodeLoop s e fuel q (if c < 255 ∧ q < e then emitByte 0 copied else copied)
    else out

/-- R141: the pseudocode of COBS_DEC, after the common start. -/
def decodeWalk (s : State) : State :=
  let n := s.ilen.toNat
  let a := skipLeading s n n 0
  let e := skipTrailing s a n
  if (List.range e).any (fun q => decide (a ≤ q) && s.byteAt .ibuf q == 0) then s.raise .cobsDec .malformedInput
  else
    let out := decodeLoop s e (e - a) a (s.obuf, 0)
    State.done { s with obuf := out.1, olen := BitVec.ofNat 16 out.2 }

/-! ### The single pass of R130 -/

/-- R130: the single-pass encoder, with the pending bytes `blk` and the flag `nz`. -/
def singlePass (blk : List Byte) (nz : Bool) : List Byte → List Byte
  | [] =>
    if blk ≠ [] then BitVec.ofNat 8 (blk.length + 1) :: blk
    else if nz then [] else [1]
  | b :: bs =>
    if b ≠ 0 then
      if blk.length + 1 = 254 then 255 :: blk ++ [b] ++ singlePass [] true bs
      else singlePass (blk ++ [b]) true bs
    else
      (if blk ≠ [] then BitVec.ofNat 8 (blk.length + 1) :: blk else [1]) ++ singlePass [] false bs

end Sys2Proof.Machine
end

