-- ==== Sys2Proof/Machine/Script.lean ====
section
/-! DEFINITION. The script notation of rules R108 and R109: a script's encoding is the list of its host accesses. -/

namespace Sys2Proof.Machine.Script

/-- `WR IBUF[i] v`. -/
def wrIbuf (i : Nat) (v : Byte) : List HostAction := [.write (.bytes .ibuf) i v.toNat]

/-- `WR ILEN n`. -/
def wrIlen (n : Nat) : List HostAction := [.write .reg 2 n]

/-- `CMD MNEMONIC`: the opcode to CMD, then reads of STATUS until `BUSY = 0`. A command runs whole within the step of its
CMD write (R73, R255), so one read sees `BUSY = 0`. -/
def cmd (i : Instr) : List HostAction := [.write .reg 0 (encode i).toNat, .read .reg 1]

/-- `RD REGNAME`, by the register's number. -/
def rd (r : Nat) : List HostAction := [.read .reg r]

/-- `RD OBUF[i]`. -/
def rdObuf (i : Nat) : List HostAction := [.read (.bytes .obuf) i]

/-- The writes `WR IBUF[i] b0`, `WR IBUF[i + 1] b1`, and so on. -/
def wrBytes (i : Nat) : List Byte → List HostAction
  | [] => []
  | b :: bs => wrIbuf i b ++ wrBytes (i + 1) bs

/-- R109: `LOAD b0 b1 ... b(n-1)`. -/
def load (bytes : List Byte) : List HostAction := wrBytes 0 bytes ++ wrIlen bytes.length

/-- R109: the reads of `EXPECT b0 ... b(n-1)`: OLEN, then `OBUF[0 .. n)`. -/
def expect (n : Nat) : List HostAction := rd 3 ++ (List.range n).flatMap rdObuf

/-- R109: `EXPECT_OK`, on the word read from STATUS: DONE 1, ERR 0, BUSY 0. -/
def expectOk (status : Byte) : Bool := decide (status &&& 0x07 = 0x02)

/-- R109: `EXPECT_ERR K`, on the word read from STATUS: ERR 1, DONE 0, BUSY 0, ECODE the code of `K`. -/
def expectErr (k : ErrorKind) (status : Byte) : Bool :=
  decide (status &&& 0x07 = 0x04) && decide (status.extractLsb' 4 4 = k.code)

/-- R109: `FEEDBACK`, in a block whose result the host has read: the result written back as the next operand. It is legal
only when `OLEN <= IN_MAX`. -/
def feedback (s : State) : List HostAction := load s.result

end Sys2Proof.Machine.Script
end

