-- ==== Sys2Proof/Safety.lean ====
section
/-! DEFINITION. The words the statements use: the invariant of the machine (rules R5, R24, R26 to R28, R33, R34, R210),
what two states share (the frames), how a command ends (R97, R218), and which accesses the host may make (R64). -/

namespace Sys2Proof.Machine

/-! ### The invariant -/

/-- R24: "DONE and ERR are never both 1; `BUSY = 1` implies `DONE = 0` and `ERR = 0`; `ECODE != 0` exactly when
`ERR = 1`". -/
def Status.consistent (f : Status) : Bool :=
  !(f.done && f.err) && !(f.busy && (f.done || f.err)) && (decide (f.ecode ≠ 0) == f.err)

/-- R210, R212: the values of ECODE that can appear: 0 and the codes of the five kinds the block raises. -/
def Status.raisedCode (f : Status) : Bool := decide (f.ecode ∈ ([0, 2, 4, 5, 6, 7] : List (BitVec 4)))

/-- R33, R34: every listed byte lies in a memory of `n` bytes. -/
def Mem.within (m : Mem) (n : Nat) : Bool := m.all (fun c => decide (c.1 < n))

/-- What holds in every state that a run from reset reaches. -/
structure BlockInv (s : State) : Prop where
  /-- R5. -/
  legal    : s.cfg.legal = true
  /-- R24. -/
  status   : s.status.consistent = true
  /-- R210, R212. -/
  code     : s.status.raisedCode = true
  /-- R27: "Values are `0 .. KEY_MAX`". -/
  klen     : s.klen.toNat ≤ s.cfg.keyMax
  /-- R28: "When the feeder is uninitialized `x[CUR] = 0`". -/
  uninit   : s.klen = 0 → s.cur = 0
  /-- R28: in every state in which the feeder is ready, "`0 <= x[CUR] < x[KLEN]`". -/
  ready    : s.klen ≠ 0 → s.cur.toNat < s.klen.toNat
  /-- R26: "Values are `0 .. OUT_MAX`". -/
  olen     : s.olen.toNat ≤ outMax s.cfg
  /-- The memories keep their canonical form. -/
  ibufWf   : s.ibuf.wf = true
  obufWf   : s.obuf.wf = true
  keyWf    : s.key.wf = true
  /-- R33, R34. -/
  ibufIn   : s.ibuf.within s.cfg.inMax = true
  obufIn   : s.obuf.within (outMax s.cfg) = true
  keyIn    : s.key.within s.cfg.keyMax = true

/-! ### Frames -/

/-- ILEN and every byte of IBUF are the same in `t` as in `s`. -/
structure SameOperand (s t : State) : Prop where
  ilen : t.ilen = s.ilen
  ibuf : ∀ i, t.byteAt .ibuf i = s.byteAt .ibuf i

/-- KLEN and every byte of KEY are the same in `t` as in `s`. -/
structure SameKey (s t : State) : Prop where
  klen : t.klen = s.klen
  key  : ∀ i, t.byteAt .key i = s.byteAt .key i

/-- The feeder is the same in `t` as in `s`: KLEN, KEY and CUR. -/
structure SameFeeder (s t : State) : Prop extends SameKey s t where
  cur : t.cur = s.cur

/-- OLEN and every byte of OBUF are the same in `t` as in `s`. -/
structure SameResult (s t : State) : Prop where
  olen : t.olen = s.olen
  obuf : ∀ i, t.byteAt .obuf i = s.byteAt .obuf i

/-- What is not the block's is the same in `t` as in `s`: its parameters, the count of resets, and the host's side. -/
structure SameSurround (s t : State) : Prop where
  cfg      : t.cfg = s.cfg
  resets   : t.resets = s.resets
  inputs   : t.inputs = s.inputs
  returned : t.returned = s.returned

/-- The result of a buffer-producing command: OBUF holds `out` and OLEN its length, and every byte of OBUF at an index
`>= OLEN` is as it was in `s` (R33). -/
structure ResultIs (out : List Byte) (s t : State) : Prop where
  olen  : t.olen.toNat = out.length
  bytes : ∀ i (h : i < out.length), t.byteAt .obuf i = out[i]
  rest  : ∀ i, out.length ≤ i → t.byteAt .obuf i = s.byteAt .obuf i

/-! ### How a command ends -/

/-- R96, R97: CMD and STATUS after the command `i` ended with `done`. -/
structure Succeeded (i : Instr) (t : State) : Prop where
  cmd    : t.cmd = encode i
  status : t.status = { busy := false, done := true, err := false, ecode := 0 }

/-- R96, R218: the state `t` after the command `i`, run in `s`, ended with error kind `k`: CMD and STATUS as the rules
say, OLEN 0 for a buffer-producing command, and nothing else changed. -/
structure Failed (i : Instr) (k : ErrorKind) (s t : State) : Prop where
  cmd      : t.cmd = encode i
  status   : t.status = { busy := false, done := false, err := true, ecode := k.code }
  olen     : t.olen = if producesBuffer i then 0 else s.olen
  obuf     : ∀ j, t.byteAt .obuf j = s.byteAt .obuf j
  feeder   : SameFeeder s t
  operand  : SameOperand s t
  elem     : t.elem = s.elem
  surround : SameSurround s t

/-- The command `i`, run in `s`, ends with error kind `k`. -/
def EndsWith (i : Instr) (k : ErrorKind) (s : State) : Prop := ∃ t, exec i s = .next t ∧ Failed i k s t

/-- R211: the error kinds that each command can end with. -/
def kindsOf : Instr → List ErrorKind
  | .cobsEnc => [.lengthError]
  | .cobsDec => [.malformedInput, .lengthError]
  | .ksfSet => [.invalidArgument, .lengthError]
  | .ksfRst => []
  | .ksfGet => [.notInitialized]
  | .vigSetpw => [.invalidArgument, .lengthError]
  | .vigRstidx => []
  | .vigEnc => [.notInitialized, .lengthError]
  | .vigDec => [.notInitialized, .lengthError]
  | .xorEnc => [.lengthError]
  | .xorDec => [.lengthError]

/-- The commands `is` run one after the other. -/
def runCommands : List Instr → State → Host.Outcome State Fault Refusal
  | [], s => .next s
  | i :: is, s =>
    match exec i s with
    | .next t => runCommands is t
    | .fault f => .fault f
    | .refused r => .refused r

/-! ### The host's accesses -/

/-- R64: the accesses the host may make while BUSY is 0, in the columns "host" of R64's table with the ranges of R62 and
R63. The platform may always reset (R240). -/
def HostAction.allowed (p : Params) : HostAction → Bool
  | .write .reg addr v => (addr == 0 && decide (v < 256)) || (addr == 2 && decide (v < 65536))
  | .write (.bytes .ibuf) addr v => decide (addr < p.inMax) && decide (v < 256)
  | .write (.bytes .obuf) _ _ => false
  | .write (.bytes .key) _ _ => false
  | .read .reg addr => decide (addr < 7)
  | .read (.bytes .ibuf) addr => decide (addr < p.inMax)
  | .read (.bytes .obuf) addr => decide (addr < outMax p)
  | .read (.bytes .key) _ => false
  | .reset => true

end Sys2Proof.Machine
end

