-- ==== Sys2Proof/Certificates/Slice0/Obligations.lean ====
section
/-! DEFINITION. The statements for the provers, in the order of OBLIGATIONS.json. Each docstring cites the rule of spec/ that
the statement formalises. Where the spec marks a sentence as derived, the docstring says so. The host's accesses to come
(`inputs`), the value a read returned (`returned`) and the count of resets (`resets`) are fields of the model's own (log
entries 3, 4 and 2); what a statement says of them is the model's choice and no rule of spec/. -/

open Sys2Proof Sys2Proof.Machine

/-! ### The command word -/

/-- R93: the opcode map: in a block with both units each opcode selects its command, `0x00` and `0x0C` to `0xFF` select
none, and the two columns "reads IBUF" and "writes OBUF, OLEN" are as tabled. -/
def Obligations.CommandWordsDecodeAsTabled : Prop :=
  ∀ p : Params, p.hasVig = true → p.hasXor = true →
    (∀ row ∈ ([(0x01, .cobsEnc, true, true), (0x02, .cobsDec, true, true), (0x03, .ksfSet, true, false),
        (0x04, .ksfRst, false, false), (0x05, .ksfGet, false, false), (0x06, .vigSetpw, true, false),
        (0x07, .vigRstidx, false, false), (0x08, .vigEnc, true, true), (0x09, .vigDec, true, true),
        (0x0A, .xorEnc, true, true), (0x0B, .xorDec, true, true)] : List (Byte × Instr × Bool × Bool)),
      decode p row.1 = .ok row.2.1 ∧ readsIbuf row.2.1 = row.2.2.1 ∧ producesBuffer row.2.1 = row.2.2.2) ∧
    (∀ v : Byte, v = 0x00 ∨ 0x0C ≤ v.toNat → decode p v = .error .reservedOpcode)

/-- R94: the decoder is the test `v = opcode` on all eight bits. Decoding and encoding agree in both directions, and a
word that is the opcode of no command is reserved. -/
def Obligations.DecodeAcceptsExactlyEachOpcode : Prop :=
  (∀ (p : Params) (v : Byte) (i : Instr), decode p v = .ok i ↔ v = encode i ∧ i.wellFormed p = true) ∧
  (∀ (p : Params) (v : Byte), decode p v = .error .reservedOpcode ↔ ∀ i, v ≠ encode i)

/-- R95: without the VIG unit the opcodes `0x06` to `0x09` are unassigned, without the XOR unit `0x0A` and `0x0B` are;
the opcodes of ENC, DEC and KSF are always assigned. -/
def Obligations.AbsentUnitsOpcodesAreUnassigned : Prop :=
  ∀ p : Params,
    (p.hasVig = false → ∀ v : Byte, 0x06 ≤ v.toNat → v.toNat ≤ 0x09 → decode p v = .error .absentUnit) ∧
    (p.hasXor = false → ∀ v : Byte, 0x0A ≤ v.toNat → v.toNat ≤ 0x0B → decode p v = .error .absentUnit) ∧
    (∀ i ∈ ([.cobsEnc, .cobsDec, .ksfSet, .ksfRst, .ksfGet] : List Instr), decode p (encode i) = .ok i)

/-! ### One step -/

/-- A step runs the decoded command. When the host's next action is a write to CMD of a word that decodes to `i` and BUSY
is 0, the step is `exec i` in the state without that action; `withFetchWord` makes the word the next action. -/
def Obligations.CmdWriteRunsTheDecodedCommand : Prop :=
  (∀ (s : State) (v : Nat) (rest : List HostAction) (i : Instr), s.inputs = .write .reg 0 v :: rest → v < 256 →
    s.status.busy = false → decode s.cfg (BitVec.ofNat 8 v) = .ok i → step s = exec i { s with inputs := rest }) ∧
  (∀ (s : State) (w : Nat) (i : Instr), s.status.busy = false → w < 256 → decode s.cfg (BitVec.ofNat 8 w) = .ok i →
    step (s.withFetchWord 8 w) = exec i s)

/-- R98: a reserved opcode, or the opcode of an absent unit, ends at once with IllegalCommand (ECODE 6) and changes
nothing but CMD and STATUS, whatever ILEN holds. -/
def Obligations.UnassignedOpcodeEndsWithIllegalCommand : Prop :=
  ∀ (s : State) (v : Nat) (rest : List HostAction) (why : Rejection), s.inputs = .write .reg 0 v :: rest → v < 256 →
    s.status.busy = false → decode s.cfg (BitVec.ofNat 8 v) = .error why →
    step s = .next { s with
      inputs := rest
      cmd := BitVec.ofNat 8 v
      status := { busy := false, done := false, err := true, ecode := 6 } }

/-- R246: while BUSY is 1 every access of the host but a read of STATUS is refused. A read of STATUS takes effect, and
reset may be asserted at any time (R240). -/
def Obligations.BusyExcludesTheHost : Prop :=
  ∀ (s : State) (a : HostAction) (rest : List HostAction), s.inputs = a :: rest → s.status.busy = true →
    (∀ space addr v, a = .write space addr v → step s = .refused .busyExclusion) ∧
    (∀ space addr, a = .read space addr → ¬ (space = .reg ∧ addr = 1) → step s = .refused .busyExclusion) ∧
    (a = .read .reg 1 → step s = .next { s with inputs := rest, returned := some (s.statusWord.setWidth 16) }) ∧
    (a = .reset → ∃ t, step s = .next t ∧ t.status.busy = false)

/-- R62: `HostWrite` with BUSY 0, one clause for each row of its table. A write of CMD runs the command of its word; a
write of ILEN or of a byte of IBUF changes that location alone; anything else is refused. That a value wider than its
location is among what is refused is inferred (log entry 8, DEDUCED): R62 bounds the values of ILEN and of a byte of IBUF,
and its row for CMD gives no bound. -/
def Obligations.HostWriteActsByTarget : Prop :=
  ∀ (s : State) (space : Space) (addr v : Nat) (rest : List HostAction), s.inputs = .write space addr v :: rest →
    s.status.busy = false →
    (space = .reg → addr = 0 → v < 256 → step s = writeCmd (BitVec.ofNat 8 v) { s with inputs := rest }) ∧
    (space = .reg → addr = 2 → v < 65536 → step s = .next { s with inputs := rest, ilen := BitVec.ofNat 16 v }) ∧
    (space = .bytes .ibuf → addr < s.cfg.inMax → v < 256 →
      ∃ t, step s = .next t ∧ t.byteAt .ibuf addr = BitVec.ofNat 8 v ∧
        (∀ j, j ≠ addr → t.byteAt .ibuf j = s.byteAt .ibuf j) ∧ t = { s with inputs := rest, ibuf := t.ibuf }) ∧
    (¬ (space = .reg ∧ addr = 0 ∧ v < 256) → ¬ (space = .reg ∧ addr = 2 ∧ v < 65536) →
      ¬ (space = .bytes .ibuf ∧ addr < s.cfg.inMax ∧ v < 256) → ∃ r, step s = .refused r)

/-- R63: `HostRead` with BUSY 0: the value of each target, with no state of the block changed; anything else is refused.
That the value is kept in the field `returned` is the model's choice (log entry 4). -/
def Obligations.HostReadReturnsTheLocation : Prop :=
  ∀ (s : State) (space : Space) (addr : Nat) (rest : List HostAction), s.inputs = .read space addr :: rest →
    s.status.busy = false →
    (∀ row ∈ ([(0, s.cmd.setWidth 16), (1, s.statusWord.setWidth 16), (2, s.ilen), (3, s.olen), (4, s.klen), (5, s.cur),
        (6, s.elem.setWidth 16)] : List (Nat × Word)), space = .reg → addr = row.1 →
      step s = .next { s with inputs := rest, returned := some row.2 }) ∧
    (space = .bytes .ibuf → addr < s.cfg.inMax →
      step s = .next { s with inputs := rest, returned := some ((s.byteAt .ibuf addr).setWidth 16) }) ∧
    (space = .bytes .obuf → addr < outMax s.cfg →
      step s = .next { s with inputs := rest, returned := some ((s.byteAt .obuf addr).setWidth 16) }) ∧
    (¬ (space = .reg ∧ addr < 7) → ¬ (space = .bytes .ibuf ∧ addr < s.cfg.inMax) →
      ¬ (space = .bytes .obuf ∧ addr < outMax s.cfg) → step s = .refused .noSuchLocation)

/-- R65: a register number `>= 7`, an index outside a byte memory and every address of KEY are refused to the host. -/
def Obligations.AbsentLocationsAreRefused : Prop :=
  ∀ (s : State) (space : Space) (addr v : Nat) (rest : List HostAction), s.status.busy = false →
    (space = .reg ∧ 7 ≤ addr ∨ space = .bytes .ibuf ∧ s.cfg.inMax ≤ addr ∨
      space = .bytes .obuf ∧ outMax s.cfg ≤ addr ∨ space = .bytes .key) →
    (s.inputs = .write space addr v :: rest → step s = .refused .noSuchLocation) ∧
    (s.inputs = .read space addr :: rest → step s = .refused .noSuchLocation)

/-- R66: a host write to STATUS, OLEN, KLEN, CUR, ELEM or a byte of OBUF is refused. -/
def Obligations.ReadOnlyLocationsRefuseWrites : Prop :=
  ∀ (s : State) (space : Space) (addr v : Nat) (rest : List HostAction), s.status.busy = false →
    (space = .reg ∧ (addr = 1 ∨ addr = 3 ∨ addr = 4 ∨ addr = 5 ∨ addr = 6) ∨
      space = .bytes .obuf ∧ addr < outMax s.cfg) →
    s.inputs = .write space addr v :: rest → step s = .refused .notWritable

/-- R240: reset, at any time and so with BUSY 1 too: all seven registers zero, the feeder uninitialized, every byte of the
memories the free value of a byte nothing has written since this reset. The last clauses are the model's choice (DESIGN
CHOICE) and no words of R240 or R36: reset counts on the free values of unwritten bytes (`resets`, log entry 2), takes one
of the host's accesses to come (`inputs`, log entry 3), leaves what the host was told (`returned`, log entry 4), and leaves
the parameters, which are an argument of the model (log entry 1). -/
def Obligations.ResetActionClearsTheBlock : Prop :=
  ∀ (s : State) (rest : List HostAction), s.inputs = .reset :: rest →
    ∃ t, step s = .next t ∧ t.cmd = 0 ∧ t.statusWord = 0 ∧ t.ilen = 0 ∧ t.olen = 0 ∧ t.klen = 0 ∧ t.cur = 0 ∧
      t.elem = 0 ∧ (∀ b i, t.byteAt b i = Config.unwrittenByte t.resets b i) ∧ t.resets = s.resets + 1 ∧
      t.cfg = s.cfg ∧ t.inputs = rest ∧ t.returned = s.returned

/-- R36: the values after reset: the seven registers zero, every field of STATUS 0, the memories unspecified. -/
def Obligations.ResetStateIsAsTabled : Prop :=
  State.reset.cmd = 0 ∧ State.reset.statusWord = 0 ∧ State.reset.status.busy = false ∧
  State.reset.status.done = false ∧ State.reset.status.err = false ∧ State.reset.krdy = false ∧
  State.reset.status.ecode = 0 ∧ State.reset.ilen = 0 ∧ State.reset.olen = 0 ∧ State.reset.klen = 0 ∧
  State.reset.cur = 0 ∧ State.reset.elem = 0 ∧
  ∀ b i, State.reset.byteAt b i = Config.unwrittenByte State.reset.resets b i

/-- R228 and log entry 3: with no host access to come the block is idle with all state held, also with BUSY 1. -/
def Obligations.IdleBlockHoldsItsState : Prop :=
  ∀ s : State, s.inputs = [] → step s = .next s

/-! ### STATUS and the ends of commands -/

/-- R24: the layout of the word read from STATUS. KRDY is 1 exactly when KLEN is not 0. -/
def Obligations.StatusWordHasTheFieldsInPlace : Prop :=
  ∀ s : State, s.statusWord.getLsbD 0 = s.status.busy ∧ s.statusWord.getLsbD 1 = s.status.done ∧
    s.statusWord.getLsbD 2 = s.status.err ∧ (s.statusWord.getLsbD 3 = true ↔ s.klen ≠ 0) ∧
    s.statusWord.extractLsb' 4 4 = s.status.ecode

/-- R96, R97, R218, R244: whatever the state, a command that ends leaves its opcode in CMD and BUSY 0, exactly one of DONE
and ERR is 1, and ECODE is 0 exactly when ERR is 0. -/
def Obligations.EveryCommandEndsDoneOrInError : Prop :=
  ∀ (i : Instr) (s t : State), exec i s = .next t →
    t.cmd = encode i ∧ t.status.busy = false ∧ t.status.done = !t.status.err ∧
    (t.status.ecode = 0 ↔ t.status.err = false)

/-- R218: at the failing end of a command OLEN is 0 for the six buffer-producing commands, ECODE and ERR are set, DONE and
BUSY are 0, CMD holds the opcode that failed, and nothing else is changed: the error is precise and leaves no partial
result. -/
def Obligations.ErrorsArePrecise : Prop :=
  ∀ (i : Instr) (s t : State), exec i s = .next t → t.status.err = true → ∃ k, Failed i k s t

/-- R211, which the spec derives: a command can end with an error kind exactly when the table has an `x` there. -/
def Obligations.CommandsEndWithTheTabledKinds : Prop :=
  ∀ (i : Instr) (k : ErrorKind), k ∈ kindsOf i ↔
    ∃ s t : State, BlockInv s ∧ exec i s = .next t ∧ t.status.err = true ∧ t.status.ecode = k.code

/-- R216: LengthError: (a) for every command that reads IBUF when `x[ILEN] > IN_MAX`, whatever the feeder and the data;
(b) for a key load when `0 < x[ILEN] <= IN_MAX` and `x[ILEN] > KEY_MAX`; never for a command that does not read ILEN. -/
def Obligations.OversizeOperandsEndWithLengthError : Prop :=
  (∀ (i : Instr) (s : State), readsIbuf i = true → s.cfg.inMax < s.ilen.toNat → EndsWith i .lengthError s) ∧
  (∀ (i : Instr) (s : State), i = .ksfSet ∨ i = .vigSetpw → 0 < s.ilen.toNat → s.ilen.toNat ≤ s.cfg.inMax →
    s.cfg.keyMax < s.ilen.toNat → EndsWith i .lengthError s) ∧
  (∀ (i : Instr) (s t : State), i = .ksfRst ∨ i = .ksfGet ∨ i = .vigRstidx → exec i s = .next t →
    t.status.ecode ≠ ErrorKind.lengthError.code)

/-- R223: "the same command on the same state fails again with the same kind": after a failed command the same command
changes nothing. -/
def Obligations.FailedCommandFailsAgain : Prop :=
  ∀ (i : Instr) (s t : State), exec i s = .next t → t.status.err = true → exec i t = .next t

/-- R70, which the spec derives: every command but KSF_GET, VIG_ENC and VIG_DEC is idempotent while IBUF, ILEN and the
feeder are unchanged by others. -/
def Obligations.OtherCommandsAreIdempotent : Prop :=
  ∀ (i : Instr) (s t : State), i ≠ .ksfGet → i ≠ .vigEnc → i ≠ .vigDec → exec i s = .next t → exec i t = .next t

/-! ### The COBS commands -/

/-- R121, R122: COBS_ENC of an operand that fits: it completes, `OBUF[0 .. OLEN)` is the encoding of the operand (the spec
derives the agreement of its pseudocode with the function), and nothing else changes. -/
def Obligations.CobsEncStoresTheEncoding : Prop :=
  ∀ s : State, s.cfg.legal = true → s.ilen.toNat ≤ s.cfg.inMax →
    ∃ t, exec .cobsEnc s = .next t ∧ Succeeded .cobsEnc t ∧ ResultIs (cobsEncode s.operand) s t ∧
      SameOperand s t ∧ SameFeeder s t ∧ t.elem = s.elem ∧ SameSurround s t

/-- R140, R141: COBS_DEC of an operand that fits and decodes: it completes, `OBUF[0 .. OLEN)` is the decoding of the operand
(the spec derives the agreement of its pseudocode with the function), and nothing else changes. -/
def Obligations.CobsDecStoresTheDecoding : Prop :=
  ∀ (s : State) (out : List Byte), s.cfg.legal = true → s.ilen.toNat ≤ s.cfg.inMax → cobsDecode s.operand = .ok out →
    ∃ t, exec .cobsDec s = .next t ∧ Succeeded .cobsDec t ∧ ResultIs out s t ∧
      SameOperand s t ∧ SameFeeder s t ∧ t.elem = s.elem ∧ SameSurround s t

/-- R143: COBS_DEC ends with MalformedInput exactly when the operand has indices `u < q < v` with a zero at `q` and
non-zero bytes at `u` and `v`; then no output is delivered. -/
def Obligations.CobsDecRejectsInnerZeros : Prop :=
  ∀ s : State, s.cfg.legal = true → s.ilen.toNat ≤ s.cfg.inMax →
    (EndsWith .cobsDec .malformedInput s ↔
      ∃ u q v, u < q ∧ q < v ∧ v < s.ilen.toNat ∧
        s.byteAt .ibuf u ≠ 0 ∧ s.byteAt .ibuf q = 0 ∧ s.byteAt .ibuf v ≠ 0)

/-- R122: on an operand that fits, COBS_ENC does what the pseudocode of R122 does, byte for byte, to the whole state. -/
def Obligations.CobsEncRefinesItsPseudocode : Prop :=
  ∀ s : State, s.ilen.toNat ≤ s.cfg.inMax → exec .cobsEnc s = .next (encodeWalk (s.start 0x01))

/-- R141: on an operand that fits, COBS_DEC does what the pseudocode of R141 does, byte for byte, to the whole state. -/
def Obligations.CobsDecRefinesItsPseudocode : Prop :=
  ∀ s : State, s.ilen.toNat ≤ s.cfg.inMax → exec .cobsDec s = .next (decodeWalk (s.start 0x02))

/-- R120: the segments of a buffer with `k` zero bytes are `k + 1`, none holds a zero, and with a zero between each two
they give the buffer back. -/
def Obligations.SegmentsSplitTheBufferAtItsZeros : Prop :=
  ∀ s : List Byte, (segments s).length = s.count 0 + 1 ∧ (∀ seg ∈ segments s, (0 : Byte) ∉ seg) ∧
    ([0] : List Byte).intercalate (segments s) = s

/-- R126, which the spec derives: the encoder's output is not empty and contains no zero byte. -/
def Obligations.EncoderOutputHasNoZero : Prop :=
  ∀ s : List Byte, cobsEncode s ≠ [] ∧ (0 : Byte) ∉ cobsEncode s

/-- R127, which the spec derives: the length of the encoding from the lengths of the segments; its bounds; and an input
that reaches the upper one. -/
def Obligations.EncodedLengthIsAsGiven : Prop :=
  (∀ (s : List Byte) (init : List (List Byte)) (final : List Byte), segments s = init ++ [final] →
    (cobsEncode s).length = s.length + (init.map (fun seg => seg.length / 254)).sum +
      (if final.length = 0 then 1 else (final.length + 253) / 254)) ∧
  (∀ s : List Byte, 1 ≤ (cobsEncode s).length ∧ (cobsEncode s).length ≤ s.length + s.length / 254 + 1) ∧
  (∀ d : List Byte, d.length = 254 → (0 : Byte) ∉ d →
    (cobsEncode (d ++ [0])).length = (d ++ [0]).length + (d ++ [0]).length / 254 + 1)

/-- R125, which the spec derives from R121: the eight rows of the table about the 254 boundary. -/
def Obligations.EncoderAtThe254Boundary : Prop :=
  ∀ d e : List Byte, d.length = 254 → e.length = 254 → (0 : Byte) ∉ d → (0 : Byte) ∉ e →
    cobsEncode (d.take 253) = 0xFE :: d.take 253 ∧
    cobsEncode d = 0xFF :: d ∧
    (∀ x : Byte, x ≠ 0 → cobsEncode (d ++ [x]) = 0xFF :: d ++ [0x02, x]) ∧
    cobsEncode (d ++ e) = 0xFF :: d ++ 0xFF :: e ∧
    cobsEncode (d ++ [0]) = 0xFF :: d ++ [0x01, 0x01] ∧
    cobsEncode (d ++ [0x00, 0x33]) = 0xFF :: d ++ [0x01, 0x02, 0x33] ∧
    cobsEncode (d.take 253 ++ [0]) = 0xFE :: d.take 253 ++ [0x01] ∧
    cobsEncode (d ++ e ++ [0x00, 0x33]) = 0xFF :: d ++ 0xFF :: e ++ [0x01, 0x02, 0x33]

/-- R130, which the spec derives: the single-pass encoder emits the encoding. -/
def Obligations.SinglePassEncoderAgrees : Prop :=
  ∀ s : List Byte, singlePass [] false s = cobsEncode s

/-- R129: the round trip, for every buffer: those with leading or trailing zeros and the empty one included. -/
def Obligations.DecodeInvertsEncode : Prop :=
  ∀ x : List Byte, cobsDecode (cobsEncode x) = .ok x

/-- R129 at register level: COBS_DEC of the fed-back result of COBS_ENC gives the operand back, when the result fits
IBUF. -/
def Obligations.CobsCommandsRoundTrip : Prop :=
  ∀ s t : State, s.cfg.legal = true → s.ilen.toNat ≤ s.cfg.inMax → exec .cobsEnc s = .next t →
    t.olen.toNat ≤ s.cfg.inMax →
    ∃ u, exec .cobsDec t.feedback = .next u ∧ Succeeded .cobsDec u ∧ u.result = s.operand

/-- R142: every leading and every trailing zero of the decoder's input is stripped. -/
def Obligations.DecodeIgnoresFrameZeros : Prop :=
  ∀ (y : List Byte) (a b : Nat), cobsDecode (List.replicate a 0 ++ y ++ List.replicate b 0) = cobsDecode y

/-- R145, R146: the walk, block by block, over a payload without zeros. A block with code `c` and its `c - 1` literal bytes,
followed by more, gives the literal bytes, a zero when `c < 255`, and then what the rest gives; the last block gives its
literal bytes alone, as many as there are. -/
def Obligations.DecodeWalksBlockByBlock : Prop :=
  (∀ (c : Byte) (lits rest out : List Byte), c ≠ 0 → (0 : Byte) ∉ lits → lits.length = c.toNat - 1 → rest ≠ [] →
    (0 : Byte) ∉ rest → cobsDecode rest = .ok out →
    cobsDecode (c :: lits ++ rest) = .ok (lits ++ (if c.toNat < 255 then [0] else []) ++ out)) ∧
  (∀ (c : Byte) (lits : List Byte), c ≠ 0 → (0 : Byte) ∉ lits → lits.length ≤ c.toNat - 1 →
    cobsDecode (c :: lits) = .ok lits)

/-! ### The feeder -/

/-- R162: KSF_SET: LengthError, InvalidArgument, or the operand stored as the owned key, KLEN its length, the cursor 0,
bytes of KEY beyond it kept, and nothing else changed. -/
def Obligations.KsfSetReplacesTheKey : Prop :=
  ∀ s : State, s.cfg.legal = true →
    (s.cfg.keyMax < s.ilen.toNat → EndsWith .ksfSet .lengthError s) ∧
    (s.ilen.toNat = 0 → EndsWith .ksfSet .invalidArgument s) ∧
    (0 < s.ilen.toNat → s.ilen.toNat ≤ s.cfg.keyMax →
      ∃ t, exec .ksfSet s = .next t ∧ Succeeded .ksfSet t ∧ t.klen = s.ilen ∧ t.cur = 0 ∧
        (∀ i, t.byteAt .key i = if i < s.ilen.toNat then s.byteAt .ibuf i else s.byteAt .key i) ∧
        t.krdy = true ∧ SameOperand s t ∧ SameResult s t ∧ t.elem = s.elem ∧ SameSurround s t)

/-- R180: VIG_SETPW: as KSF_SET, on the block's one feeder. -/
def Obligations.VigSetpwReplacesThePassword : Prop :=
  ∀ s : State, s.cfg.legal = true →
    (s.cfg.keyMax < s.ilen.toNat → EndsWith .vigSetpw .lengthError s) ∧
    (s.ilen.toNat = 0 → EndsWith .vigSetpw .invalidArgument s) ∧
    (0 < s.ilen.toNat → s.ilen.toNat ≤ s.cfg.keyMax →
      ∃ t, exec .vigSetpw s = .next t ∧ Succeeded .vigSetpw t ∧ t.klen = s.ilen ∧ t.cur = 0 ∧
        (∀ i, t.byteAt .key i = if i < s.ilen.toNat then s.byteAt .ibuf i else s.byteAt .key i) ∧
        t.krdy = true ∧ SameOperand s t ∧ SameResult s t ∧ t.elem = s.elem ∧ SameSurround s t)

/-- R164, R181: KSF_RST and VIG_RSTIDX set the cursor to 0, always succeed, and change nothing else. -/
def Obligations.CursorResetsSetTheCursorToZero : Prop :=
  ∀ (i : Instr) (s : State), i = .ksfRst ∨ i = .vigRstidx →
    ∃ t, exec i s = .next t ∧ Succeeded i t ∧ t.cur = 0 ∧ SameKey s t ∧ SameOperand s t ∧ SameResult s t ∧
      t.elem = s.elem ∧ SameSurround s t

/-- R166: KSF_GET: NotInitialized on an uninitialized feeder; otherwise ELEM is the byte of KEY at the cursor, the cursor
moves on by one and wraps at KLEN, and nothing else changes. -/
def Obligations.KsfGetEmitsTheNextElement : Prop :=
  ∀ s : State, BlockInv s →
    (s.klen = 0 → EndsWith .ksfGet .notInitialized s) ∧
    (s.klen ≠ 0 → ∃ t, exec .ksfGet s = .next t ∧ Succeeded .ksfGet t ∧ t.elem = s.byteAt .key s.cur.toNat ∧
      t.cur.toNat = (if s.cur.toNat + 1 = s.klen.toNat then 0 else s.cur.toNat + 1) ∧
      SameKey s t ∧ SameOperand s t ∧ SameResult s t ∧ SameSurround s t)

/-- R167, which the spec derives: from a ready feeder with cursor `c`, the `j`-th of a run of KSF_GET commands
(`j = 0, 1, ...`) returns `key[(c + j) mod len(key)]` and leaves the cursor at `(c + j + 1) mod len(key)`. -/
def Obligations.KsfGetRunsRoundTheKey : Prop :=
  ∀ (s : State) (j : Nat), BlockInv s → s.klen ≠ 0 →
    ∃ t, runCommands (List.replicate (j + 1) .ksfGet) s = .next t ∧
      t.elem = s.byteAt .key ((s.cur.toNat + j) % s.klen.toNat) ∧
      t.cur.toNat = (s.cur.toNat + j + 1) % s.klen.toNat ∧ SameKey s t

/-- R168: the feeder before and after every command, an illegal opcode and reset. A successful key load leaves it ready
with the new key, which is the operand (R162, R180), and the cursor 0. Where ILEN exceeds IN_MAX the common start ends
VIG_ENC and VIG_DEC with LengthError first (R216, R220), the feeder unchanged. -/
def Obligations.FeederLifeCycleIsAsTabled : Prop :=
  (∀ (i : Instr) (s t : State), BlockInv s → exec i s = .next t →
    (i = .ksfSet ∨ i = .vigSetpw → t.status.err = false →
      t.klen ≠ 0 ∧ t.klen = s.ilen ∧ (∀ j, j < s.ilen.toNat → t.byteAt .key j = s.byteAt .ibuf j) ∧ t.cur = 0) ∧
    (i = .ksfSet ∨ i = .vigSetpw → t.status.err = true → SameFeeder s t) ∧
    (i = .ksfRst ∨ i = .vigRstidx → SameKey s t ∧ t.cur = 0) ∧
    (i = .ksfGet → s.klen = 0 → t.status.ecode = ErrorKind.notInitialized.code ∧ SameFeeder s t) ∧
    (i = .ksfGet → s.klen ≠ 0 → SameKey s t ∧ t.cur.toNat = (s.cur.toNat + 1) % s.klen.toNat) ∧
    (i = .vigEnc ∨ i = .vigDec → s.klen = 0 → s.ilen.toNat ≤ s.cfg.inMax →
      t.status.ecode = ErrorKind.notInitialized.code) ∧
    (i = .vigEnc ∨ i = .vigDec → t.status.err = true → SameFeeder s t) ∧
    (i = .vigEnc ∨ i = .vigDec → t.status.err = false →
      SameKey s t ∧ t.cur.toNat = (s.cur.toNat + s.ilen.toNat) % s.klen.toNat) ∧
    (i = .cobsEnc ∨ i = .cobsDec ∨ i = .xorEnc ∨ i = .xorDec → SameFeeder s t)) ∧
  (∀ (s : State) (v : Nat) (rest : List HostAction) (why : Rejection), s.inputs = .write .reg 0 v :: rest → v < 256 →
    s.status.busy = false → decode s.cfg (BitVec.ofNat 8 v) = .error why → ∃ t, step s = .next t ∧ SameFeeder s t) ∧
  (∀ (s : State) (rest : List HostAction), s.inputs = .reset :: rest →
    ∃ t, step s = .next t ∧ t.klen = 0 ∧ t.cur = 0)

/-- R31: the stored key is an owned copy: no command but KSF_SET and VIG_SETPW writes KEY or KLEN, and no other host
access changes them. -/
def Obligations.OnlyKeyLoadsWriteTheKey : Prop :=
  (∀ (i : Instr) (s t : State), i ≠ .ksfSet → i ≠ .vigSetpw → exec i s = .next t → t.key = s.key ∧ t.klen = s.klen) ∧
  (∀ (s t : State) (a : HostAction) (rest : List HostAction), s.inputs = a :: rest → a ≠ .reset →
    (∀ v, a ≠ .write .reg 0 v) → step s = .next t → t.key = s.key ∧ t.klen = s.klen ∧ t.cur = s.cur)

/-! ### The Vigenère commands -/

/-- R182, R184, R185: VIG_ENC: LengthError; NotInitialized on an uninitialized feeder, even for empty data; otherwise OBUF
holds, for each byte in order, `(byte + keystreamByte) mod 256`, the cursor has moved on by ILEN round the key, and nothing
else changes. The closed forms of the keystream byte, `key[(c + i) mod K]`, and of the cursor, `(c + n) mod K`, are R185's,
which the spec derives from R182 and R184. -/
def Obligations.VigEncAddsTheKeystream : Prop :=
  ∀ s : State, BlockInv s →
    (s.cfg.inMax < s.ilen.toNat → EndsWith .vigEnc .lengthError s) ∧
    (s.ilen.toNat ≤ s.cfg.inMax → s.klen = 0 → EndsWith .vigEnc .notInitialized s) ∧
    (s.ilen.toNat ≤ s.cfg.inMax → s.klen ≠ 0 →
      ∃ t, exec .vigEnc s = .next t ∧ Succeeded .vigEnc t ∧ t.olen = s.ilen ∧
        (∀ i, i < s.ilen.toNat → (t.byteAt .obuf i).toNat = ((s.byteAt .ibuf i).toNat +
          (s.byteAt .key ((s.cur.toNat + i) % s.klen.toNat)).toNat) % 256) ∧
        (∀ i, s.ilen.toNat ≤ i → t.byteAt .obuf i = s.byteAt .obuf i) ∧
        t.cur.toNat = (s.cur.toNat + s.ilen.toNat) % s.klen.toNat ∧
        SameKey s t ∧ SameOperand s t ∧ t.elem = s.elem ∧ SameSurround s t)

/-- R183, R184, R185: VIG_DEC: as VIG_ENC with `(byte - keystreamByte) mod 256`, the unique remainder in `0 .. 255` (R10).
The closed forms of the keystream byte, `key[(c + i) mod K]`, and of the cursor, `(c + n) mod K`, are R185's, which the spec
derives from R183 and R184. -/
def Obligations.VigDecSubtractsTheKeystream : Prop :=
  ∀ s : State, BlockInv s →
    (s.cfg.inMax < s.ilen.toNat → EndsWith .vigDec .lengthError s) ∧
    (s.ilen.toNat ≤ s.cfg.inMax → s.klen = 0 → EndsWith .vigDec .notInitialized s) ∧
    (s.ilen.toNat ≤ s.cfg.inMax → s.klen ≠ 0 →
      ∃ t, exec .vigDec s = .next t ∧ Succeeded .vigDec t ∧ t.olen = s.ilen ∧
        (∀ i, i < s.ilen.toNat → ((t.byteAt .obuf i).toNat : Int) = (((s.byteAt .ibuf i).toNat : Int) -
          ((s.byteAt .key ((s.cur.toNat + i) % s.klen.toNat)).toNat : Int)) % 256) ∧
        (∀ i, s.ilen.toNat ≤ i → t.byteAt .obuf i = s.byteAt .obuf i) ∧
        t.cur.toNat = (s.cur.toNat + s.ilen.toNat) % s.klen.toNat ∧
        SameKey s t ∧ SameOperand s t ∧ t.elem = s.elem ∧ SameSurround s t)

/-- R186: the cursor is never implicitly reset: two commands of one kind on operands `u` then `v` give the bytes, and leave
the cursor, of one command on `u ++ v`. -/
def Obligations.VigenereStreamsAcrossCommands : Prop :=
  ∀ (i : Instr) (s : State) (u v : List Byte), i = .vigEnc ∨ i = .vigDec → BlockInv s → s.klen ≠ 0 →
    (u ++ v).length ≤ s.cfg.inMax →
    ∃ t1 t2 t, exec i (s.load u) = .next t1 ∧ exec i (t1.load v) = .next t2 ∧ exec i (s.load (u ++ v)) = .next t ∧
      t.result = t1.result ++ t2.result ∧ t.cur = t2.cur

/-- R187, at byte level as the spec derives it: VIG_DEC started at the cursor where VIG_ENC started, on the output of
VIG_ENC, gives the operand back, and the same with the two commands exchanged. -/
def Obligations.VigenereCommandsRoundTrip : Prop :=
  ∀ (i j : Instr) (s : State), i = .vigEnc ∧ j = .vigDec ∨ i = .vigDec ∧ j = .vigEnc → BlockInv s → s.klen ≠ 0 →
    s.ilen.toNat ≤ s.cfg.inMax →
    ∃ t u, exec i s = .next t ∧ exec j { t.feedback with cur := s.cur } = .next u ∧ Succeeded j u ∧
      u.result = s.operand

/-! ### The XOR commands -/

/-- R200, R201, R204: XOR_ENC and XOR_DEC: LengthError, or every byte of the operand exclusive-or 255 in OBUF, OLEN the
length of the operand, and nothing else changed. -/
def Obligations.XorCommandsMaskEveryByte : Prop :=
  ∀ (i : Instr) (s : State), i = .xorEnc ∨ i = .xorDec →
    (s.cfg.inMax < s.ilen.toNat → EndsWith i .lengthError s) ∧
    (s.ilen.toNat ≤ s.cfg.inMax →
      ∃ t, exec i s = .next t ∧ Succeeded i t ∧ t.olen = s.ilen ∧
        (∀ k, k < s.ilen.toNat → t.byteAt .obuf k = s.byteAt .ibuf k ^^^ 0xFF) ∧
        (∀ k, s.ilen.toNat ≤ k → t.byteAt .obuf k = s.byteAt .obuf k) ∧
        SameOperand s t ∧ SameFeeder s t ∧ t.elem = s.elem ∧ SameSurround s t)

/-- R203: any two XOR commands in a row, the result of the first fed back to the second, give the operand back. -/
def Obligations.XorCommandsAreAnInvolution : Prop :=
  ∀ (i j : Instr) (s : State), i = .xorEnc ∨ i = .xorDec → j = .xorEnc ∨ j = .xorDec → s.ilen.toNat ≤ s.cfg.inMax →
    ∃ t u, exec i s = .next t ∧ t.olen = s.ilen ∧ exec j t.feedback = .next u ∧ Succeeded j u ∧ u.result = s.operand

/-! ### The whole machine -/

/-- The invariant holds after reset. That the reset block's parameters are legal is the model's choice of them (log
entry 1). -/
def Obligations.ResetMeetsTheInvariant : Prop := BlockInv State.reset

/-- R24, R26 to R28, R33, R34, R210: every step keeps the invariant. -/
def Obligations.StepKeepsTheInvariant : Prop :=
  ∀ s t : State, BlockInv s → step s = .next t → BlockInv t

/-- From a state that meets the invariant every command completes: no fetch from KEY, no store to KEY and no store to OBUF
ends in the fault `noSuchByte`. The fault is the model's (log entry 9, DESIGN CHOICE), raised where R6 and R80, which the
spec derives, say that no command goes. Reads of IBUF are not checked, so this says nothing of them: that no command
depends on a byte of IBUF outside its operand is `IbufBeyondTheOperandIsImmaterial`. -/
def Obligations.CommandsCompleteWithoutAddressFault : Prop :=
  ∀ (i : Instr) (s : State), BlockInv s → ∃ t, exec i s = .next t

/-- R62 to R64: with BUSY 0 a step goes on exactly when the host's next access is one that R64 allows, with the ranges of
R62 and R63, or there is none; it never faults. Two clauses are not R64's: a value wider than its location is refused (log
entry 8, DEDUCED), and a step with no access to come goes on (log entry 3, DESIGN CHOICE). -/
def Obligations.StepRefusesExactlyWhatIsNotAllowed : Prop :=
  ∀ s : State, BlockInv s → s.status.busy = false →
    ((∃ t, step s = .next t) ↔ ∀ a rest, s.inputs = a :: rest → a.allowed s.cfg = true) ∧
    (∀ f, step s ≠ .fault f)

/-- A command runs whole within the step of its CMD write, so a state that shows BUSY 0 never leads to one that shows BUSY
1. This is the model's choice (log entry 5, DESIGN CHOICE), which R73 and R255 allow ("a model may execute the whole command
inside the step of the CMD write and never show `BUSY = 1`") and do not ask for. -/
def Obligations.StepNeverShowsBusy : Prop :=
  ∀ s t : State, s.status.busy = false → step s = .next t → t.status.busy = false

/-- R41, R73 (e): no step changes the block's parameters, and a step takes the host's oldest access and no other. That a
step is one access of the list `inputs` is the model's choice (log entry 3, DESIGN CHOICE). -/
def Obligations.StepKeepsParametersAndTakesOneAccess : Prop :=
  ∀ s t : State, step s = .next t → t.cfg = s.cfg ∧ t.inputs = s.inputs.tail

/-- R20, column "written by the block"; R25, R26, R28, R29, R33: no command writes ILEN or IBUF; only the buffer-producing
ones write OLEN or OBUF; only KSF_GET writes ELEM; the COBS and XOR commands leave CUR; and none touches what is not the
block's. -/
def Obligations.EachRegisterHasItsWriters : Prop :=
  ∀ (i : Instr) (s t : State), exec i s = .next t →
    SameOperand s t ∧ (producesBuffer i = false → SameResult s t) ∧ (i ≠ .ksfGet → t.elem = s.elem) ∧
    (i = .cobsEnc ∨ i = .cobsDec ∨ i = .xorEnc ∨ i = .xorDec → t.cur = s.cur) ∧ SameSurround s t

/-- R34: no command's effect depends on a byte of KEY at an index `>= KLEN`: with another memory KEY that reads the same
below KLEN, every command does the same to everything but KEY. -/
def Obligations.KeyBeyondItsLengthIsImmaterial : Prop :=
  ∀ (i : Instr) (s t : State) (m : Mem), BlockInv s →
    (∀ j, j < s.klen.toNat → State.byteAt { s with key := m } .key j = s.byteAt .key j) → exec i s = .next t →
    ∃ t', exec i { s with key := m } = .next t' ∧ { t' with key := t.key } = t

/-- R128 and its like for the XOR unit (R200): the COBS and XOR commands read no feeder state: with any other feeder they
do the same to everything else. -/
def Obligations.CobsAndXorCommandsIgnoreTheFeeder : Prop :=
  ∀ (i : Instr) (s t : State) (m : Mem) (klen cur : Word),
    i = .cobsEnc ∨ i = .cobsDec ∨ i = .xorEnc ∨ i = .xorDec → exec i s = .next t →
    exec i { s with key := m, klen := klen, cur := cur } = .next { t with key := m, klen := klen, cur := cur }

/-- R109, R243: running the accesses of `LOAD` one a step (log entry 3) leaves the operand in `IBUF[0 .. n)` and its length in ILEN, with
every other byte and register as it was. -/
def Obligations.LoadDeliversTheOperand : Prop :=
  ∀ (s : State) (bytes : List Byte) (rest : List HostAction), s.cfg.legal = true → s.status.busy = false →
    bytes.length ≤ s.cfg.inMax → s.inputs = Script.load bytes ++ rest →
    ∃ t : State, Host.Core.run Sys2Proof.core (bytes.length + 1) s = .next t ∧ t.operand = bytes ∧
      (∀ j, bytes.length ≤ j → t.byteAt .ibuf j = s.byteAt .ibuf j) ∧
      t = { s with ibuf := t.ibuf, ilen := BitVec.ofNat 16 bytes.length, inputs := rest }

/-- R25, R80: a command reads `IBUF[0 .. ILEN)` and no other byte of IBUF, so no byte at an index `>= IN_MAX`; and none at
all where it does not read IBUF (R93) or ILEN exceeds IN_MAX (R216). With any other memory IBUF that reads the same below
ILEN, where the command reads it, every command does the same to everything but IBUF and leaves IBUF as it is. -/
def Obligations.IbufBeyondTheOperandIsImmaterial : Prop :=
  ∀ (i : Instr) (s t : State) (m : Mem),
    (readsIbuf i = true → s.ilen.toNat ≤ s.cfg.inMax → ∀ j, j < s.ilen.toNat →
      State.byteAt { s with ibuf := m } .ibuf j = s.byteAt .ibuf j) →
    exec i s = .next t → exec i { s with ibuf := m } = .next { t with ibuf := m }
end

