-- ==== Sys2Proof/Laws/State.lean ====
section
/-! SUPPORT. What each update of the state does to each field, one lemma a field and update, and to a read of one byte: so
that no proof unfolds a record update. -/

namespace Sys2Proof.Machine

/-! ### `State.start` -/

@[simp] theorem start_cmd (v : Byte) (s : State) : (s.start v).cmd = v := rfl
@[simp] theorem start_status (v : Byte) (s : State) : (s.start v).status = Status.started := rfl
@[simp] theorem start_ilen (v : Byte) (s : State) : (s.start v).ilen = s.ilen := rfl
@[simp] theorem start_olen (v : Byte) (s : State) : (s.start v).olen = s.olen := rfl
@[simp] theorem start_klen (v : Byte) (s : State) : (s.start v).klen = s.klen := rfl
@[simp] theorem start_cur (v : Byte) (s : State) : (s.start v).cur = s.cur := rfl
@[simp] theorem start_elem (v : Byte) (s : State) : (s.start v).elem = s.elem := rfl
@[simp] theorem start_ibuf (v : Byte) (s : State) : (s.start v).ibuf = s.ibuf := rfl
@[simp] theorem start_obuf (v : Byte) (s : State) : (s.start v).obuf = s.obuf := rfl
@[simp] theorem start_key (v : Byte) (s : State) : (s.start v).key = s.key := rfl
@[simp] theorem start_cfg (v : Byte) (s : State) : (s.start v).cfg = s.cfg := rfl
@[simp] theorem start_resets (v : Byte) (s : State) : (s.start v).resets = s.resets := rfl
@[simp] theorem start_inputs (v : Byte) (s : State) : (s.start v).inputs = s.inputs := rfl
@[simp] theorem start_returned (v : Byte) (s : State) : (s.start v).returned = s.returned := rfl
@[simp] theorem start_byteAt (v : Byte) (s : State) (m : Buffer) (j : Nat) : (s.start v).byteAt m j = s.byteAt m j := by
  cases m <;> rfl
@[simp] theorem start_bytesOf (v : Byte) (s : State) (m : Buffer) (n : Nat) : (s.start v).bytesOf m n = s.bytesOf m n := by
  cases m <;> rfl
@[simp] theorem start_operand (v : Byte) (s : State) : (s.start v).operand = s.operand := rfl

/-! ### `State.done` -/

@[simp] theorem done_cmd (s : State) : s.done.cmd = s.cmd := rfl
@[simp] theorem done_status (s : State) : s.done.status = s.status.finish := rfl
@[simp] theorem done_ilen (s : State) : s.done.ilen = s.ilen := rfl
@[simp] theorem done_olen (s : State) : s.done.olen = s.olen := rfl
@[simp] theorem done_klen (s : State) : s.done.klen = s.klen := rfl
@[simp] theorem done_cur (s : State) : s.done.cur = s.cur := rfl
@[simp] theorem done_elem (s : State) : s.done.elem = s.elem := rfl
@[simp] theorem done_ibuf (s : State) : s.done.ibuf = s.ibuf := rfl
@[simp] theorem done_obuf (s : State) : s.done.obuf = s.obuf := rfl
@[simp] theorem done_key (s : State) : s.done.key = s.key := rfl
@[simp] theorem done_cfg (s : State) : s.done.cfg = s.cfg := rfl
@[simp] theorem done_resets (s : State) : s.done.resets = s.resets := rfl
@[simp] theorem done_inputs (s : State) : s.done.inputs = s.inputs := rfl
@[simp] theorem done_returned (s : State) : s.done.returned = s.returned := rfl
@[simp] theorem done_byteAt (s : State) (m : Buffer) (j : Nat) : s.done.byteAt m j = s.byteAt m j := by
  cases m <;> rfl
@[simp] theorem done_bytesOf (s : State) (m : Buffer) (n : Nat) : s.done.bytesOf m n = s.bytesOf m n := by
  cases m <;> rfl
@[simp] theorem done_operand (s : State) : s.done.operand = s.operand := rfl

/-! ### `State.raise` -/

@[simp] theorem raise_cmd (i : Instr) (k : ErrorKind) (s : State) : (s.raise i k).cmd = s.cmd := rfl
@[simp] theorem raise_status (i : Instr) (k : ErrorKind) (s : State) : (s.raise i k).status = Status.fail k := rfl
@[simp] theorem raise_ilen (i : Instr) (k : ErrorKind) (s : State) : (s.raise i k).ilen = s.ilen := rfl
@[simp] theorem raise_olen (i : Instr) (k : ErrorKind) (s : State) : (s.raise i k).olen = if producesBuffer i then 0 else s.olen := rfl
@[simp] theorem raise_klen (i : Instr) (k : ErrorKind) (s : State) : (s.raise i k).klen = s.klen := rfl
@[simp] theorem raise_cur (i : Instr) (k : ErrorKind) (s : State) : (s.raise i k).cur = s.cur := rfl
@[simp] theorem raise_elem (i : Instr) (k : ErrorKind) (s : State) : (s.raise i k).elem = s.elem := rfl
@[simp] theorem raise_ibuf (i : Instr) (k : ErrorKind) (s : State) : (s.raise i k).ibuf = s.ibuf := rfl
@[simp] theorem raise_obuf (i : Instr) (k : ErrorKind) (s : State) : (s.raise i k).obuf = s.obuf := rfl
@[simp] theorem raise_key (i : Instr) (k : ErrorKind) (s : State) : (s.raise i k).key = s.key := rfl
@[simp] theorem raise_cfg (i : Instr) (k : ErrorKind) (s : State) : (s.raise i k).cfg = s.cfg := rfl
@[simp] theorem raise_resets (i : Instr) (k : ErrorKind) (s : State) : (s.raise i k).resets = s.resets := rfl
@[simp] theorem raise_inputs (i : Instr) (k : ErrorKind) (s : State) : (s.raise i k).inputs = s.inputs := rfl
@[simp] theorem raise_returned (i : Instr) (k : ErrorKind) (s : State) : (s.raise i k).returned = s.returned := rfl
@[simp] theorem raise_byteAt (i : Instr) (k : ErrorKind) (s : State) (m : Buffer) (j : Nat) : (s.raise i k).byteAt m j = s.byteAt m j := by
  cases m <;> rfl
@[simp] theorem raise_bytesOf (i : Instr) (k : ErrorKind) (s : State) (m : Buffer) (n : Nat) : (s.raise i k).bytesOf m n = s.bytesOf m n := by
  cases m <;> rfl
@[simp] theorem raise_operand (i : Instr) (k : ErrorKind) (s : State) : (s.raise i k).operand = s.operand := rfl

/-! ### `State.illegalCommand` -/

@[simp] theorem illegalCommand_cmd (v : Byte) (s : State) : (s.illegalCommand v).cmd = v := rfl
@[simp] theorem illegalCommand_status (v : Byte) (s : State) : (s.illegalCommand v).status = Status.fail .illegalCommand := rfl
@[simp] theorem illegalCommand_ilen (v : Byte) (s : State) : (s.illegalCommand v).ilen = s.ilen := rfl
@[simp] theorem illegalCommand_olen (v : Byte) (s : State) : (s.illegalCommand v).olen = s.olen := rfl
@[simp] theorem illegalCommand_klen (v : Byte) (s : State) : (s.illegalCommand v).klen = s.klen := rfl
@[simp] theorem illegalCommand_cur (v : Byte) (s : State) : (s.illegalCommand v).cur = s.cur := rfl
@[simp] theorem illegalCommand_elem (v : Byte) (s : State) : (s.illegalCommand v).elem = s.elem := rfl
@[simp] theorem illegalCommand_ibuf (v : Byte) (s : State) : (s.illegalCommand v).ibuf = s.ibuf := rfl
@[simp] theorem illegalCommand_obuf (v : Byte) (s : State) : (s.illegalCommand v).obuf = s.obuf := rfl
@[simp] theorem illegalCommand_key (v : Byte) (s : State) : (s.illegalCommand v).key = s.key := rfl
@[simp] theorem illegalCommand_cfg (v : Byte) (s : State) : (s.illegalCommand v).cfg = s.cfg := rfl
@[simp] theorem illegalCommand_resets (v : Byte) (s : State) : (s.illegalCommand v).resets = s.resets := rfl
@[simp] theorem illegalCommand_inputs (v : Byte) (s : State) : (s.illegalCommand v).inputs = s.inputs := rfl
@[simp] theorem illegalCommand_returned (v : Byte) (s : State) : (s.illegalCommand v).returned = s.returned := rfl
@[simp] theorem illegalCommand_byteAt (v : Byte) (s : State) (m : Buffer) (j : Nat) : (s.illegalCommand v).byteAt m j = s.byteAt m j := by
  cases m <;> rfl
@[simp] theorem illegalCommand_bytesOf (v : Byte) (s : State) (m : Buffer) (n : Nat) : (s.illegalCommand v).bytesOf m n = s.bytesOf m n := by
  cases m <;> rfl
@[simp] theorem illegalCommand_operand (v : Byte) (s : State) : (s.illegalCommand v).operand = s.operand := rfl

/-! ### `State.withResult` -/

@[simp] theorem withResult_cmd (out : List Byte) (s : State) : (s.withResult out).cmd = s.cmd := rfl
@[simp] theorem withResult_status (out : List Byte) (s : State) : (s.withResult out).status = s.status := rfl
@[simp] theorem withResult_ilen (out : List Byte) (s : State) : (s.withResult out).ilen = s.ilen := rfl
@[simp] theorem withResult_olen (out : List Byte) (s : State) : (s.withResult out).olen = BitVec.ofNat 16 out.length := rfl
@[simp] theorem withResult_klen (out : List Byte) (s : State) : (s.withResult out).klen = s.klen := rfl
@[simp] theorem withResult_cur (out : List Byte) (s : State) : (s.withResult out).cur = s.cur := rfl
@[simp] theorem withResult_elem (out : List Byte) (s : State) : (s.withResult out).elem = s.elem := rfl
@[simp] theorem withResult_ibuf (out : List Byte) (s : State) : (s.withResult out).ibuf = s.ibuf := rfl
@[simp] theorem withResult_obuf (out : List Byte) (s : State) : (s.withResult out).obuf = s.obuf.store 0 out := rfl
@[simp] theorem withResult_key (out : List Byte) (s : State) : (s.withResult out).key = s.key := rfl
@[simp] theorem withResult_cfg (out : List Byte) (s : State) : (s.withResult out).cfg = s.cfg := rfl
@[simp] theorem withResult_resets (out : List Byte) (s : State) : (s.withResult out).resets = s.resets := rfl
@[simp] theorem withResult_inputs (out : List Byte) (s : State) : (s.withResult out).inputs = s.inputs := rfl
@[simp] theorem withResult_returned (out : List Byte) (s : State) : (s.withResult out).returned = s.returned := rfl
@[simp] theorem withResult_byteAt_ibuf (out : List Byte) (s : State) (j : Nat) : (s.withResult out).byteAt .ibuf j = s.byteAt .ibuf j := rfl
@[simp] theorem withResult_byteAt_key (out : List Byte) (s : State) (j : Nat) : (s.withResult out).byteAt .key j = s.byteAt .key j := rfl
@[simp] theorem withResult_operand (out : List Byte) (s : State) : (s.withResult out).operand = s.operand := rfl

/-! ### `State.withKey` -/

@[simp] theorem withKey_cmd (k : List Byte) (s : State) : (s.withKey k).cmd = s.cmd := rfl
@[simp] theorem withKey_status (k : List Byte) (s : State) : (s.withKey k).status = s.status := rfl
@[simp] theorem withKey_ilen (k : List Byte) (s : State) : (s.withKey k).ilen = s.ilen := rfl
@[simp] theorem withKey_olen (k : List Byte) (s : State) : (s.withKey k).olen = s.olen := rfl
@[simp] theorem withKey_klen (k : List Byte) (s : State) : (s.withKey k).klen = BitVec.ofNat 16 k.length := rfl
@[simp] theorem withKey_cur (k : List Byte) (s : State) : (s.withKey k).cur = 0 := rfl
@[simp] theorem withKey_elem (k : List Byte) (s : State) : (s.withKey k).elem = s.elem := rfl
@[simp] theorem withKey_ibuf (k : List Byte) (s : State) : (s.withKey k).ibuf = s.ibuf := rfl
@[simp] theorem withKey_obuf (k : List Byte) (s : State) : (s.withKey k).obuf = s.obuf := rfl
@[simp] theorem withKey_key (k : List Byte) (s : State) : (s.withKey k).key = s.key.store 0 k := rfl
@[simp] theorem withKey_cfg (k : List Byte) (s : State) : (s.withKey k).cfg = s.cfg := rfl
@[simp] theorem withKey_resets (k : List Byte) (s : State) : (s.withKey k).resets = s.resets := rfl
@[simp] theorem withKey_inputs (k : List Byte) (s : State) : (s.withKey k).inputs = s.inputs := rfl
@[simp] theorem withKey_returned (k : List Byte) (s : State) : (s.withKey k).returned = s.returned := rfl
@[simp] theorem withKey_byteAt_ibuf (k : List Byte) (s : State) (j : Nat) : (s.withKey k).byteAt .ibuf j = s.byteAt .ibuf j := rfl
@[simp] theorem withKey_byteAt_obuf (k : List Byte) (s : State) (j : Nat) : (s.withKey k).byteAt .obuf j = s.byteAt .obuf j := rfl
@[simp] theorem withKey_operand (k : List Byte) (s : State) : (s.withKey k).operand = s.operand := rfl

/-! ### `State.withCursor` -/

@[simp] theorem withCursor_cmd (c : Word) (s : State) : (s.withCursor c).cmd = s.cmd := rfl
@[simp] theorem withCursor_status (c : Word) (s : State) : (s.withCursor c).status = s.status := rfl
@[simp] theorem withCursor_ilen (c : Word) (s : State) : (s.withCursor c).ilen = s.ilen := rfl
@[simp] theorem withCursor_olen (c : Word) (s : State) : (s.withCursor c).olen = s.olen := rfl
@[simp] theorem withCursor_klen (c : Word) (s : State) : (s.withCursor c).klen = s.klen := rfl
@[simp] theorem withCursor_cur (c : Word) (s : State) : (s.withCursor c).cur = c := rfl
@[simp] theorem withCursor_elem (c : Word) (s : State) : (s.withCursor c).elem = s.elem := rfl
@[simp] theorem withCursor_ibuf (c : Word) (s : State) : (s.withCursor c).ibuf = s.ibuf := rfl
@[simp] theorem withCursor_obuf (c : Word) (s : State) : (s.withCursor c).obuf = s.obuf := rfl
@[simp] theorem withCursor_key (c : Word) (s : State) : (s.withCursor c).key = s.key := rfl
@[simp] theorem withCursor_cfg (c : Word) (s : State) : (s.withCursor c).cfg = s.cfg := rfl
@[simp] theorem withCursor_resets (c : Word) (s : State) : (s.withCursor c).resets = s.resets := rfl
@[simp] theorem withCursor_inputs (c : Word) (s : State) : (s.withCursor c).inputs = s.inputs := rfl
@[simp] theorem withCursor_returned (c : Word) (s : State) : (s.withCursor c).returned = s.returned := rfl
@[simp] theorem withCursor_byteAt (c : Word) (s : State) (m : Buffer) (j : Nat) : (s.withCursor c).byteAt m j = s.byteAt m j := by
  cases m <;> rfl
@[simp] theorem withCursor_bytesOf (c : Word) (s : State) (m : Buffer) (n : Nat) : (s.withCursor c).bytesOf m n = s.bytesOf m n := by
  cases m <;> rfl
@[simp] theorem withCursor_operand (c : Word) (s : State) : (s.withCursor c).operand = s.operand := rfl

/-! ### `State.withElem` -/

@[simp] theorem withElem_cmd (v : Byte) (s : State) : (s.withElem v).cmd = s.cmd := rfl
@[simp] theorem withElem_status (v : Byte) (s : State) : (s.withElem v).status = s.status := rfl
@[simp] theorem withElem_ilen (v : Byte) (s : State) : (s.withElem v).ilen = s.ilen := rfl
@[simp] theorem withElem_olen (v : Byte) (s : State) : (s.withElem v).olen = s.olen := rfl
@[simp] theorem withElem_klen (v : Byte) (s : State) : (s.withElem v).klen = s.klen := rfl
@[simp] theorem withElem_cur (v : Byte) (s : State) : (s.withElem v).cur = s.cur := rfl
@[simp] theorem withElem_elem (v : Byte) (s : State) : (s.withElem v).elem = v := rfl
@[simp] theorem withElem_ibuf (v : Byte) (s : State) : (s.withElem v).ibuf = s.ibuf := rfl
@[simp] theorem withElem_obuf (v : Byte) (s : State) : (s.withElem v).obuf = s.obuf := rfl
@[simp] theorem withElem_key (v : Byte) (s : State) : (s.withElem v).key = s.key := rfl
@[simp] theorem withElem_cfg (v : Byte) (s : State) : (s.withElem v).cfg = s.cfg := rfl
@[simp] theorem withElem_resets (v : Byte) (s : State) : (s.withElem v).resets = s.resets := rfl
@[simp] theorem withElem_inputs (v : Byte) (s : State) : (s.withElem v).inputs = s.inputs := rfl
@[simp] theorem withElem_returned (v : Byte) (s : State) : (s.withElem v).returned = s.returned := rfl
@[simp] theorem withElem_byteAt (v : Byte) (s : State) (m : Buffer) (j : Nat) : (s.withElem v).byteAt m j = s.byteAt m j := by
  cases m <;> rfl
@[simp] theorem withElem_bytesOf (v : Byte) (s : State) (m : Buffer) (n : Nat) : (s.withElem v).bytesOf m n = s.bytesOf m n := by
  cases m <;> rfl
@[simp] theorem withElem_operand (v : Byte) (s : State) : (s.withElem v).operand = s.operand := rfl

/-! ### `State.resetCursor` -/

@[simp] theorem resetCursor_cmd (s : State) : s.resetCursor.cmd = s.cmd := rfl
@[simp] theorem resetCursor_status (s : State) : s.resetCursor.status = s.status := rfl
@[simp] theorem resetCursor_ilen (s : State) : s.resetCursor.ilen = s.ilen := rfl
@[simp] theorem resetCursor_olen (s : State) : s.resetCursor.olen = s.olen := rfl
@[simp] theorem resetCursor_klen (s : State) : s.resetCursor.klen = s.klen := rfl
@[simp] theorem resetCursor_cur (s : State) : s.resetCursor.cur = 0 := rfl
@[simp] theorem resetCursor_elem (s : State) : s.resetCursor.elem = s.elem := rfl
@[simp] theorem resetCursor_ibuf (s : State) : s.resetCursor.ibuf = s.ibuf := rfl
@[simp] theorem resetCursor_obuf (s : State) : s.resetCursor.obuf = s.obuf := rfl
@[simp] theorem resetCursor_key (s : State) : s.resetCursor.key = s.key := rfl
@[simp] theorem resetCursor_cfg (s : State) : s.resetCursor.cfg = s.cfg := rfl
@[simp] theorem resetCursor_resets (s : State) : s.resetCursor.resets = s.resets := rfl
@[simp] theorem resetCursor_inputs (s : State) : s.resetCursor.inputs = s.inputs := rfl
@[simp] theorem resetCursor_returned (s : State) : s.resetCursor.returned = s.returned := rfl
@[simp] theorem resetCursor_byteAt (s : State) (m : Buffer) (j : Nat) : s.resetCursor.byteAt m j = s.byteAt m j := by
  cases m <;> rfl
@[simp] theorem resetCursor_bytesOf (s : State) (m : Buffer) (n : Nat) : s.resetCursor.bytesOf m n = s.bytesOf m n := by
  cases m <;> rfl
@[simp] theorem resetCursor_operand (s : State) : s.resetCursor.operand = s.operand := rfl

/-! ### `State.advanceCursor` -/

@[simp] theorem advanceCursor_cmd (s : State) : s.advanceCursor.cmd = s.cmd := rfl
@[simp] theorem advanceCursor_status (s : State) : s.advanceCursor.status = s.status := rfl
@[simp] theorem advanceCursor_ilen (s : State) : s.advanceCursor.ilen = s.ilen := rfl
@[simp] theorem advanceCursor_olen (s : State) : s.advanceCursor.olen = s.olen := rfl
@[simp] theorem advanceCursor_klen (s : State) : s.advanceCursor.klen = s.klen := rfl
@[simp] theorem advanceCursor_cur (s : State) : s.advanceCursor.cur = if s.cur.toNat + 1 = s.klen.toNat then 0 else s.cur + 1 := rfl
@[simp] theorem advanceCursor_elem (s : State) : s.advanceCursor.elem = s.elem := rfl
@[simp] theorem advanceCursor_ibuf (s : State) : s.advanceCursor.ibuf = s.ibuf := rfl
@[simp] theorem advanceCursor_obuf (s : State) : s.advanceCursor.obuf = s.obuf := rfl
@[simp] theorem advanceCursor_key (s : State) : s.advanceCursor.key = s.key := rfl
@[simp] theorem advanceCursor_cfg (s : State) : s.advanceCursor.cfg = s.cfg := rfl
@[simp] theorem advanceCursor_resets (s : State) : s.advanceCursor.resets = s.resets := rfl
@[simp] theorem advanceCursor_inputs (s : State) : s.advanceCursor.inputs = s.inputs := rfl
@[simp] theorem advanceCursor_returned (s : State) : s.advanceCursor.returned = s.returned := rfl
@[simp] theorem advanceCursor_byteAt (s : State) (m : Buffer) (j : Nat) : s.advanceCursor.byteAt m j = s.byteAt m j := by
  cases m <;> rfl
@[simp] theorem advanceCursor_bytesOf (s : State) (m : Buffer) (n : Nat) : s.advanceCursor.bytesOf m n = s.bytesOf m n := by
  cases m <;> rfl
@[simp] theorem advanceCursor_operand (s : State) : s.advanceCursor.operand = s.operand := rfl

/-! ### `State.load` -/

@[simp] theorem load_cmd (bytes : List Byte) (s : State) : (s.load bytes).cmd = s.cmd := rfl
@[simp] theorem load_status (bytes : List Byte) (s : State) : (s.load bytes).status = s.status := rfl
@[simp] theorem load_ilen (bytes : List Byte) (s : State) : (s.load bytes).ilen = BitVec.ofNat 16 bytes.length := rfl
@[simp] theorem load_olen (bytes : List Byte) (s : State) : (s.load bytes).olen = s.olen := rfl
@[simp] theorem load_klen (bytes : List Byte) (s : State) : (s.load bytes).klen = s.klen := rfl
@[simp] theorem load_cur (bytes : List Byte) (s : State) : (s.load bytes).cur = s.cur := rfl
@[simp] theorem load_elem (bytes : List Byte) (s : State) : (s.load bytes).elem = s.elem := rfl
@[simp] theorem load_ibuf (bytes : List Byte) (s : State) : (s.load bytes).ibuf = s.ibuf.store 0 bytes := rfl
@[simp] theorem load_obuf (bytes : List Byte) (s : State) : (s.load bytes).obuf = s.obuf := rfl
@[simp] theorem load_key (bytes : List Byte) (s : State) : (s.load bytes).key = s.key := rfl
@[simp] theorem load_cfg (bytes : List Byte) (s : State) : (s.load bytes).cfg = s.cfg := rfl
@[simp] theorem load_resets (bytes : List Byte) (s : State) : (s.load bytes).resets = s.resets := rfl
@[simp] theorem load_inputs (bytes : List Byte) (s : State) : (s.load bytes).inputs = s.inputs := rfl
@[simp] theorem load_returned (bytes : List Byte) (s : State) : (s.load bytes).returned = s.returned := rfl

@[simp] theorem load_byteAt_obuf (bytes : List Byte) (s : State) (j : Nat) :
    (s.load bytes).byteAt .obuf j = s.byteAt .obuf j := rfl
@[simp] theorem load_byteAt_key (bytes : List Byte) (s : State) (j : Nat) :
    (s.load bytes).byteAt .key j = s.byteAt .key j := rfl

/-! ### The three memories of a state -/

@[simp] theorem mem_ibuf (s : State) : s.mem .ibuf = s.ibuf := rfl
@[simp] theorem mem_obuf (s : State) : s.mem .obuf = s.obuf := rfl
@[simp] theorem mem_key (s : State) : s.mem .key = s.key := rfl

/-- A read of one byte depends on its memory and the count of resets alone. -/
theorem byteAt_congr {s t : State} {b : Buffer} (hm : t.mem b = s.mem b) (hr : t.resets = s.resets) (j : Nat) :
    t.byteAt b j = s.byteAt b j := by
  simp [State.byteAt, hm, hr]

@[simp] theorem bytesOf_length (s : State) (b : Buffer) (n : Nat) : (s.bytesOf b n).length = n := by
  simp [State.bytesOf]

theorem bytesOf_getElem (s : State) (b : Buffer) (n j : Nat) (h : j < (s.bytesOf b n).length) :
    (s.bytesOf b n)[j] = s.byteAt b j := by
  simp [State.bytesOf]

/-- The first `n` bytes of a memory depend on those bytes alone. -/
theorem bytesOf_congr {s t : State} {b c : Buffer} {n : Nat} (h : ∀ j, j < n → t.byteAt c j = s.byteAt b j) :
    t.bytesOf c n = s.bytesOf b n := by
  simp only [State.bytesOf]
  exact List.map_congr_left fun j hj => h j (List.mem_range.mp hj)

@[simp] theorem operand_length (s : State) : s.operand.length = s.ilen.toNat := bytesOf_length ..
@[simp] theorem result_length (s : State) : s.result.length = s.olen.toNat := bytesOf_length ..

/-! ### STATUS -/

@[simp] theorem started_finish : Status.started.finish = { busy := false, done := true, err := false, ecode := 0 } := rfl
@[simp] theorem fail_busy (k : ErrorKind) : (Status.fail k).busy = false := rfl
@[simp] theorem fail_done (k : ErrorKind) : (Status.fail k).done = false := rfl
@[simp] theorem fail_err (k : ErrorKind) : (Status.fail k).err = true := rfl
@[simp] theorem fail_ecode (k : ErrorKind) : (Status.fail k).ecode = k.code := rfl

/-- R210: no error kind has code 0. -/
@[simp] theorem code_ne_zero (k : ErrorKind) : k.code ≠ 0#4 := by cases k <;> decide

/-- R210: different error kinds have different codes. -/
theorem code_injective {j k : ErrorKind} (h : j.code = k.code) : j = k := by
  cases j <;> cases k <;> first | rfl | exact absurd h (by decide)

/-! ### The state after reset -/

@[simp] theorem afterReset_cfg (p : Params) (n : Nat) (i : List HostAction) (r : Option Word) :
    (State.afterReset p n i r).cfg = p := rfl
@[simp] theorem afterReset_byteAt (p : Params) (n : Nat) (i : List HostAction) (r : Option Word) (b : Buffer) (j : Nat) :
    (State.afterReset p n i r).byteAt b j = Config.unwrittenByte n b j := by
  cases b <;> rfl

end Sys2Proof.Machine
end

