-- ==== Sys2Proof/Laws/Memory.lean ====
section
/-! SUPPORT. The byte memories: a read after a store, and that a store keeps the canonical form (rules R12, R33, R34). -/

namespace Sys2Proof.Machine

/-! ### Cells -/

theorem cellsFrom_written (a : Nat) (bs : List Byte) (j : Nat) :
    (cellsFrom a bs).written j = if a ≤ j then bs[j - a]? else none := by
  induction bs generalizing a with
  | nil => simp [cellsFrom, Mem.written]
  | cons b bs ih =>
    simp only [cellsFrom, Mem.written, ih]
    by_cases h : a = j
    · subst h; simp
    · by_cases h2 : a ≤ j
      · have h3 : a + 1 ≤ j := by omega
        have h4 : j - a = (j - (a + 1)) + 1 := by omega
        simp [h, h2, h3, h4]
      · have h3 : ¬ a + 1 ≤ j := by omega
        simp [h, h2, h3]

theorem cellsFrom_append (a : Nat) (bs cs : List Byte) :
    cellsFrom a (bs ++ cs) = cellsFrom a bs ++ cellsFrom (a + bs.length) cs := by
  induction bs generalizing a with
  | nil => simp [cellsFrom]
  | cons b bs ih => simp [cellsFrom, ih, Nat.add_assoc, Nat.add_comm 1]

theorem cellsFrom_mem {a : Nat} {bs : List Byte} {c : Host.Cell} (h : c ∈ cellsFrom a bs) :
    a ≤ c.1 ∧ c.1 < a + bs.length := by
  induction bs generalizing a with
  | nil => simp [cellsFrom] at h
  | cons b bs ih =>
    simp only [cellsFrom, List.mem_cons] at h
    rcases h with rfl | h
    · simp
    · have := ih h; simp; omega

theorem written_append (m n : Mem) (j : Nat) : Mem.written (m ++ n) j = (m.written j).or (n.written j) := by
  induction m with
  | nil => simp [Mem.written]
  | cons c m ih =>
    simp only [List.cons_append, Mem.written, ih]
    by_cases h : c.1 = j <;> simp [h]

theorem written_filter (m : Mem) (p : Nat → Bool) (j : Nat) :
    Mem.written (m.filter (fun c => p c.1)) j = if p j then m.written j else none := by
  induction m with
  | nil => simp [Mem.written]
  | cons c m ih =>
    by_cases hp : p c.1 <;> by_cases h : c.1 = j <;> simp_all [Mem.written]

/-! ### Read after store -/

/-- `MemRead` after `MemWrite`: the stored bytes where they were stored, every other byte as before. -/
theorem written_store (m : Mem) (a : Nat) (bs : List Byte) (j : Nat) :
    (m.store a bs).written j = if a ≤ j ∧ j < a + bs.length then bs[j - a]? else m.written j := by
  simp only [Mem.store, written_append, cellsFrom_written, written_filter m (fun x => decide (x < a)),
    written_filter m (fun x => decide (a + bs.length ≤ x))]
  by_cases h1 : j < a
  · have : ¬ a ≤ j := by omega
    have : ¬ a + bs.length ≤ j := by omega
    simp [*]
  · by_cases h2 : j < a + bs.length
    · have h3 : a ≤ j := by omega
      have h4 : j - a < bs.length := by omega
      simp [h1, h2, h3, h4]
    · have h3 : a ≤ j := by omega
      have h4 : a + bs.length ≤ j := by omega
      have h5 : bs.length ≤ j - a := by omega
      simp [h1, h2, h3, h4, h5]

/-- Storing again what a store stored changes nothing. -/
theorem store_store (m : Mem) (a : Nat) (bs : List Byte) : (m.store a bs).store a bs = m.store a bs := by
  have h1 : (cellsFrom a bs).filter (fun c => decide (c.1 < a)) = [] := by
    rw [List.filter_eq_nil_iff]; intro c hc; have := cellsFrom_mem hc; simp; omega
  have h2 : (cellsFrom a bs).filter (fun c => decide (a + bs.length ≤ c.1)) = [] := by
    rw [List.filter_eq_nil_iff]; intro c hc; have := cellsFrom_mem hc; simp; omega
  have h3 : ∀ c : Host.Cell, (decide (c.1 < a) && decide (a + bs.length ≤ c.1)) = false := by
    intro c; simp; omega
  have h4 : ∀ c : Host.Cell, (decide (a + bs.length ≤ c.1) && decide (c.1 < a)) = false := by
    intro c; simp; omega
  simp [Mem.store, List.filter_append, h1, h2, List.filter_filter, h3, h4]

/-- Storing two runs of bytes, one right after the other from index 0, is storing them as one. -/
theorem store_append (m : Mem) (bs cs : List Byte) : (m.store 0 bs).store bs.length cs = m.store 0 (bs ++ cs) := by
  have h1 : (cellsFrom 0 bs).filter (fun c => decide (c.1 < bs.length)) = cellsFrom 0 bs := by
    rw [List.filter_eq_self]; intro c hc; have := cellsFrom_mem hc; simp; omega
  have h2 : (cellsFrom 0 bs).filter (fun c => decide (bs.length + cs.length ≤ c.1)) = [] := by
    rw [List.filter_eq_nil_iff]; intro c hc; have := cellsFrom_mem hc; simp; omega
  have h3 : ∀ c : Host.Cell, (decide (c.1 < bs.length) && decide (bs.length ≤ c.1)) = false := by
    intro c; simp
  have h4 : ∀ c : Host.Cell, (decide (bs.length + cs.length ≤ c.1) && decide (bs.length ≤ c.1))
      = decide (bs.length + cs.length ≤ c.1) := by
    intro c; rw [Bool.eq_iff_iff]; simp; omega
  simp [Mem.store, List.filter_append, h1, h2, List.filter_filter, h3, h4, cellsFrom_append]

/-! ### The canonical form -/

theorem wf_iff_pairwise (m : Mem) : m.wf = true ↔ m.Pairwise (fun c d => c.1 < d.1) := by
  induction m with
  | nil => simp [Mem.wf]
  | cons c m ih =>
    cases m with
    | nil => simp [Mem.wf]
    | cons d m =>
      simp only [Mem.wf, Bool.and_eq_true, decide_eq_true_eq, ih, List.pairwise_cons]
      constructor
      · rintro ⟨h, h2, h3⟩
        refine ⟨?_, h2, h3⟩
        intro e he
        rcases List.mem_cons.mp he with rfl | he
        · exact h
        · exact Nat.lt_trans h (h2 e he)
      · rintro ⟨h, h2, h3⟩
        exact ⟨h d (by simp), h2, h3⟩

theorem cellsFrom_pairwise (a : Nat) (bs : List Byte) : (cellsFrom a bs).Pairwise (fun c d => c.1 < d.1) := by
  induction bs generalizing a with
  | nil => simp [cellsFrom]
  | cons b bs ih =>
    simp only [cellsFrom, List.pairwise_cons]
    exact ⟨fun c hc => by have := cellsFrom_mem hc; omega, ih _⟩

/-- A store keeps the canonical form. -/
theorem store_wf {m : Mem} (a : Nat) (bs : List Byte) (h : m.wf = true) : (m.store a bs).wf = true := by
  rw [wf_iff_pairwise] at *
  simp only [Mem.store]
  rw [List.pairwise_append, List.pairwise_append]
  refine ⟨⟨h.filter _, cellsFrom_pairwise a bs, ?_⟩, h.filter _, ?_⟩
  · intro c hc d hd
    have := cellsFrom_mem hd
    simp only [List.mem_filter, decide_eq_true_eq] at hc
    omega
  · intro c hc d hd
    simp only [List.mem_filter, decide_eq_true_eq] at hd
    rcases List.mem_append.mp hc with hc | hc
    · simp only [List.mem_filter, decide_eq_true_eq] at hc
      omega
    · have := cellsFrom_mem hc
      omega

/-- A store of bytes that lie in a memory of `n` bytes stays in it. -/
theorem store_within {m : Mem} {n : Nat} (a : Nat) (bs : List Byte) (h : m.within n = true) (hn : a + bs.length ≤ n) :
    (m.store a bs).within n = true := by
  simp only [Mem.within, List.all_eq_true, decide_eq_true_eq] at *
  intro c hc
  simp only [Mem.store, List.mem_append, List.mem_filter] at hc
  rcases hc with (⟨hc, -⟩ | hc) | ⟨hc, -⟩
  · exact h c hc
  · have := cellsFrom_mem hc; omega
  · exact h c hc

/-! ### A read of one byte after a store -/

/-- `MemRead` of a memory that a store changed: the stored bytes where they were stored, every other byte as before. -/
theorem byteAt_of_store {s t : State} {b : Buffer} {a : Nat} {bs : List Byte} (hm : t.mem b = (s.mem b).store a bs)
    (hr : t.resets = s.resets) (j : Nat) :
    t.byteAt b j = if h : a ≤ j ∧ j < a + bs.length then bs[j - a] else s.byteAt b j := by
  by_cases h : a ≤ j ∧ j < a + bs.length
  · have h2 : j - a < bs.length := by omega
    simp [State.byteAt, hm, hr, written_store, h, h2]
  · simp [State.byteAt, hm, hr, written_store, h]

/-- A memory that `bytes` were stored in from index 0 holds them there. -/
theorem bytesOf_of_store {s t : State} {b : Buffer} {bs : List Byte} (hm : t.mem b = (s.mem b).store 0 bs)
    (hr : t.resets = s.resets) : t.bytesOf b bs.length = bs := by
  refine List.ext_getElem (bytesOf_length ..) fun j h1 h2 => ?_
  rw [bytesOf_getElem, byteAt_of_store hm hr]
  simp [h2]

end Sys2Proof.Machine
end

