-- ==== Sys2Proof/Laws/Commands.lean ====
section
/-! SUPPORT. What each shared operation of the commands can do, said once (rules R96, R97, R162, R166, R184, R218), and what
a whole command can do (`exec_cases`): provers cite these instead of unfolding the operations. -/

namespace Sys2Proof.Machine

/-! ### The common start -/

/-- R96: a command that goes on either was stopped by the length check, or its own rule went on. -/
theorem runCommand_next {i : Instr} {body : State → Except Fault State} {s t : State} :
    runCommand i body s = .next t ↔
      (readsIbuf i = true ∧ s.cfg.inMax < s.ilen.toNat ∧ t = (s.start (encode i)).raise i .lengthError) ∨
      (¬ (readsIbuf i = true ∧ s.cfg.inMax < s.ilen.toNat) ∧ body (s.start (encode i)) = .ok t) := by
  by_cases h : readsIbuf i = true ∧ s.cfg.inMax < s.ilen.toNat
  · simp [runCommand, h, eq_comm]
  · have h' : (readsIbuf i && decide (s.cfg.inMax < s.ilen.toNat)) = false := by
      rw [Bool.eq_false_iff]; simpa using h
    have h2 : ¬ (readsIbuf i = true ∧ s.cfg.inMax < s.ilen.toNat ∧
        t = (s.start (encode i)).raise i .lengthError) := fun ⟨a, b, _⟩ => h ⟨a, b⟩
    simp only [runCommand, h', h, h2, false_or, not_false_eq_true, true_and]
    cases hb : body (s.start (encode i)) <;> simp

theorem runCommand_oversize {i : Instr} {body : State → Except Fault State} {s : State} (hr : readsIbuf i = true)
    (h : s.cfg.inMax < s.ilen.toNat) : runCommand i body s = .next ((s.start (encode i)).raise i .lengthError) :=
  runCommand_next.mpr (.inl ⟨hr, h, rfl⟩)

/-- R96: a command whose operand fits, or that reads none, is its own rule after the start. -/
theorem runCommand_fits {i : Instr} {body : State → Except Fault State} {s t : State}
    (h : readsIbuf i = true → s.ilen.toNat ≤ s.cfg.inMax) (hb : body (s.start (encode i)) = .ok t) :
    runCommand i body s = .next t :=
  runCommand_next.mpr (.inr ⟨fun ⟨hr, hl⟩ => by have := h hr; omega, hb⟩)

/-- No command is refused. -/
theorem runCommand_ne_refused (i : Instr) (body : State → Except Fault State) (s : State) (r : Refusal) :
    runCommand i body s ≠ .refused r := by
  unfold runCommand
  split
  · simp
  · cases hb : body (s.start (encode i)) <;> simp [hb]

/-! ### Storing a result -/

theorem storeResult_ok {out : List Byte} {s t : State} :
    storeResult out s = .ok t ↔ out.length ≤ outMax s.cfg ∧ t = s.withResult out := by
  unfold storeResult
  split <;> simp [*, eq_comm]

theorem deliver_ok {i : Instr} {r : Except ErrorKind (List Byte)} {s t : State} :
    deliver i r s = .ok t ↔ (∃ k, r = .error k ∧ t = s.raise i k) ∨
      (∃ out, r = .ok out ∧ out.length ≤ outMax s.cfg ∧ t = (s.withResult out).done) := by
  cases r with
  | error k => simp [deliver, eq_comm]
  | ok out =>
    simp only [deliver, storeResult]
    by_cases h : out.length ≤ outMax s.cfg <;> simp [h, eq_comm]

/-! ### The feeder -/

theorem storeKey_ok {k : List Byte} {s t : State} :
    storeKey k s = .ok t ↔ k.length ≤ s.cfg.keyMax ∧ t = s.withKey k := by
  unfold storeKey
  split <;> simp [*, eq_comm]

theorem setContent_ok {i : Instr} {s t : State} :
    setContent i s = .ok t ↔ (s.ilen.toNat = 0 ∧ t = s.raise i .invalidArgument) ∨
      (s.ilen.toNat ≠ 0 ∧ s.cfg.keyMax < s.ilen.toNat ∧ t = s.raise i .lengthError) ∨
      (s.ilen.toNat ≠ 0 ∧ s.ilen.toNat ≤ s.cfg.keyMax ∧ t = (s.withKey s.operand).done) := by
  unfold setContent
  split
  · simp [*, eq_comm]
  · split
    · rename_i h1 h2
      rw [Except.ok.injEq]
      constructor
      · rintro rfl; exact .inr (.inl ⟨h1, h2, rfl⟩)
      · rintro (⟨h, -⟩ | ⟨-, -, rfl⟩ | ⟨-, h, -⟩)
        · exact absurd h h1
        · rfl
        · omega
    · rename_i h1 h2
      have h3 : s.ilen.toNat ≤ s.cfg.keyMax := by omega
      simp only [storeKey, operand_length, h3, if_true, Except.ok.injEq]
      constructor
      · rintro rfl; exact .inr (.inr ⟨h1, trivial, rfl⟩)
      · rintro (⟨h, -⟩ | ⟨-, h, -⟩ | ⟨-, -, rfl⟩)
        · exact absurd h h1
        · omega
        · rfl

theorem nextKey_ok {s t : State} {k : Byte} :
    nextKey s = .ok (k, t) ↔ s.cur.toNat < s.cfg.keyMax ∧ k = s.byteAt .key s.cur.toNat ∧ t = s.advanceCursor := by
  unfold nextKey
  split <;> simp [*, eq_comm]

theorem getElement_ok {i : Instr} {s t : State} :
    getElement i s = .ok t ↔ (s.klen = 0 ∧ t = s.raise i .notInitialized) ∨
      (s.klen ≠ 0 ∧ s.cur.toNat < s.cfg.keyMax ∧
        t = (s.advanceCursor.withElem (s.byteAt .key s.cur.toNat)).done) := by
  unfold getElement
  split
  · simp [*, eq_comm]
  · rename_i hk
    by_cases hc : s.cur.toNat < s.cfg.keyMax
    · simp only [nextKey, hc, if_true, Except.ok.injEq]
      constructor
      · rintro rfl; exact .inr ⟨hk, trivial, rfl⟩
      · rintro (⟨h, -⟩ | ⟨-, -, rfl⟩)
        · exact absurd h hk
        · rfl
    · simp only [nextKey, hc, if_false]
      constructor
      · intro h; cases h
      · rintro (⟨h, -⟩ | ⟨-, h, -⟩)
        · exact absurd h hk
        · exact absurd h id

/-! ### The cursor -/

/-- R184: on a ready feeder the cursor moves on by one round the key. -/
theorem advanceCursor_toNat {s : State} (h : s.cur.toNat < s.klen.toNat) :
    s.advanceCursor.cur.toNat = (s.cur.toNat + 1) % s.klen.toNat := by
  have hk := s.klen.isLt
  simp only [advanceCursor_cur]
  split
  · rename_i h1; rw [h1]; simp
  · rw [Nat.mod_eq_of_lt (by omega), BitVec.toNat_add]
    simp; omega

/-- R182, R183: the loop changes nothing but the cursor, and gives one byte for each. -/
theorem scramble_frame {f : Byte → Byte → Byte} {bs out : List Byte} {s t : State}
    (h : scramble f bs s = .ok (out, t)) : out.length = bs.length ∧ t = s.withCursor t.cur := by
  induction bs generalizing s out with
  | nil =>
    simp only [scramble, Except.ok.injEq, Prod.mk.injEq] at h
    obtain ⟨rfl, rfl⟩ := h
    exact ⟨rfl, rfl⟩
  | cons b bs ih =>
    simp only [scramble] at h
    split at h
    · cases h
    · rename_i k u hn
      obtain ⟨-, -, rfl⟩ := nextKey_ok.mp hn
      split at h
      · cases h
      · rename_i out' u hs
        simp only [Except.ok.injEq, Prod.mk.injEq] at h
        obtain ⟨rfl, rfl⟩ := h
        obtain ⟨hl, hu⟩ := ih hs
        exact ⟨by simp [hl], by rw [hu]; rfl⟩

/-- R185: on a ready feeder the loop leaves the cursor as many places on as there are bytes, round the key. -/
theorem scramble_cursor {f : Byte → Byte → Byte} {bs out : List Byte} {s t : State}
    (h : scramble f bs s = .ok (out, t)) (hc : s.cur.toNat < s.klen.toNat) :
    t.cur.toNat = (s.cur.toNat + bs.length) % s.klen.toNat := by
  induction bs generalizing s out with
  | nil =>
    simp only [scramble, Except.ok.injEq, Prod.mk.injEq] at h
    obtain ⟨-, rfl⟩ := h
    simp [Nat.mod_eq_of_lt hc]
  | cons b bs ih =>
    simp only [scramble] at h
    split at h
    · cases h
    · rename_i k u hn
      obtain ⟨-, -, rfl⟩ := nextKey_ok.mp hn
      have ha := advanceCursor_toNat hc
      split at h
      · cases h
      · rename_i out' u hs
        simp only [Except.ok.injEq, Prod.mk.injEq] at h
        obtain ⟨-, rfl⟩ := h
        rw [ih hs (by rw [ha, advanceCursor_klen]; exact Nat.mod_lt _ (by omega)), ha, advanceCursor_klen,
          Nat.mod_add_mod, List.length_cons]
        congr 1; omega

/-- R185: on a ready feeder the loop completes; byte `j` of the output is combined with the key byte `j` places on from
the cursor, and the cursor ends as many places on as there are bytes. -/
theorem scramble_ready (f : Byte → Byte → Byte) (bs : List Byte) {s : State} (hc : s.cur.toNat < s.klen.toNat)
    (hk : s.klen.toNat ≤ s.cfg.keyMax) :
    ∃ out t, scramble f bs s = .ok (out, t) ∧ out.length = bs.length ∧ t = s.withCursor t.cur ∧
      (∀ j (h : j < bs.length), out[j]? = some (f bs[j] (s.byteAt .key ((s.cur.toNat + j) % s.klen.toNat)))) ∧
      t.cur.toNat = (s.cur.toNat + bs.length) % s.klen.toNat := by
  induction bs generalizing s with
  | nil => exact ⟨[], s, rfl, rfl, rfl, by simp, by simp [Nat.mod_eq_of_lt hc]⟩
  | cons b bs ih =>
    have hn : nextKey s = .ok (s.byteAt .key s.cur.toNat, s.advanceCursor) :=
      nextKey_ok.mpr ⟨by omega, rfl, rfl⟩
    have ha := advanceCursor_toNat hc
    have hc' : s.advanceCursor.cur.toNat < s.advanceCursor.klen.toNat := by
      rw [ha, advanceCursor_klen]; exact Nat.mod_lt _ (by omega)
    have hklen := advanceCursor_klen s
    obtain ⟨out, t, hs, hl, ht, hb, hcur⟩ := ih hc' (by simpa using hk)
    refine ⟨f b (s.byteAt .key s.cur.toNat) :: out, t, ?_, by simp [hl], by rw [ht]; rfl, ?_, ?_⟩
    · simp only [scramble, hn, hs]
    · intro j hj
      cases j with
      | zero => simp [Nat.mod_eq_of_lt hc]
      | succ j =>
        have := hb j (by simpa using hj)
        simp only [List.getElem?_cons_succ, this, ha, List.getElem_cons_succ, advanceCursor_byteAt,
          advanceCursor_klen, Nat.mod_add_mod, Option.some.injEq]
        rw [show s.cur.toNat + 1 + j = s.cur.toNat + (j + 1) by omega]
    · rw [hcur, ha, advanceCursor_klen, Nat.mod_add_mod, List.length_cons]
      congr 1; omega

theorem vigenere_ok {i : Instr} {f : Byte → Byte → Byte} {s t : State} (h : vigenere i f s = .ok t) :
    (s.klen = 0 ∧ t = s.raise i .notInitialized) ∨
    (s.klen ≠ 0 ∧ ∃ out cur, out.length = s.ilen.toNat ∧ out.length ≤ outMax s.cfg ∧
      scramble f s.operand s = .ok (out, s.withCursor cur) ∧ t = ((s.withCursor cur).withResult out).done) := by
  unfold vigenere at h
  split at h
  · rename_i hk
    exact .inl ⟨hk, by simpa [eq_comm] using h⟩
  · rename_i hk
    refine .inr ⟨hk, ?_⟩
    split at h
    · cases h
    · rename_i out u hs
      obtain ⟨hl, hu⟩ := scramble_frame hs
      rcases deliver_ok.mp h with ⟨k, hr, -⟩ | ⟨out', hr, ho, rfl⟩
      · cases hr
      · simp only [Except.ok.injEq] at hr
        subst hr
        have hl' : out.length = s.ilen.toNat := by simpa using hl
        refine ⟨out, u.cur, hl', ?_, ?_, ?_⟩
        · rw [hu] at ho; exact ho
        · rw [← hu]; exact hs
        · rw [← hu]

/-! ### A whole command -/

theorem exec_cobsEnc (s : State) :
    exec .cobsEnc s = runCommand .cobsEnc (fun u => deliver .cobsEnc (.ok (cobsEncode u.operand)) u) s := rfl
theorem exec_cobsDec (s : State) :
    exec .cobsDec s = runCommand .cobsDec (fun u => deliver .cobsDec (cobsDecode u.operand) u) s := rfl
theorem exec_ksfSet (s : State) : exec .ksfSet s = runCommand .ksfSet (setContent .ksfSet) s := rfl
theorem exec_ksfRst (s : State) : exec .ksfRst s = runCommand .ksfRst (fun u => .ok u.resetCursor.done) s := rfl
theorem exec_ksfGet (s : State) : exec .ksfGet s = runCommand .ksfGet (getElement .ksfGet) s := rfl
theorem exec_vigSetpw (s : State) : exec .vigSetpw s = runCommand .vigSetpw (setContent .vigSetpw) s := rfl
theorem exec_vigRstidx (s : State) :
    exec .vigRstidx s = runCommand .vigRstidx (fun u => .ok u.resetCursor.done) s := rfl
theorem exec_vigEnc (s : State) :
    exec .vigEnc s = runCommand .vigEnc (vigenere .vigEnc (fun b k => b + k)) s := rfl
theorem exec_vigDec (s : State) :
    exec .vigDec s = runCommand .vigDec (vigenere .vigDec (fun b k => b - k)) s := rfl
theorem exec_xorEnc (s : State) :
    exec .xorEnc s = runCommand .xorEnc (fun u => deliver .xorEnc (.ok (xorMask u.operand)) u) s := rfl
theorem exec_xorDec (s : State) :
    exec .xorDec s = runCommand .xorDec (fun u => deliver .xorDec (.ok (xorMask u.operand)) u) s := rfl

/-- What a command can do, said once. It ends with an error kind of R211's table and R218's effect; or it is a
buffer-producing command that stored a result (and, in the VIG unit, moved the cursor on); or a key load; or a cursor
reset; or KSF_GET on a ready feeder. -/
theorem exec_cases {i : Instr} {s t : State} (h : exec i s = .next t) :
    (∃ k, k ∈ kindsOf i ∧ t = (s.start (encode i)).raise i k) ∨
    (producesBuffer i = true ∧ s.ilen.toNat ≤ s.cfg.inMax ∧ ∃ out cur, out.length ≤ outMax s.cfg ∧
      (cur = s.cur ∧ i ≠ .vigEnc ∧ i ≠ .vigDec ∨ (i = .vigEnc ∨ i = .vigDec) ∧ s.klen ≠ 0 ∧
        (s.cur.toNat < s.klen.toNat → cur.toNat = (s.cur.toNat + s.ilen.toNat) % s.klen.toNat)) ∧
      t = (((s.start (encode i)).withCursor cur).withResult out).done) ∨
    ((i = .ksfSet ∨ i = .vigSetpw) ∧ s.ilen.toNat ≠ 0 ∧ s.ilen.toNat ≤ s.cfg.inMax ∧ s.ilen.toNat ≤ s.cfg.keyMax ∧
      t = ((s.start (encode i)).withKey s.operand).done) ∨
    ((i = .ksfRst ∨ i = .vigRstidx) ∧ t = (s.start (encode i)).resetCursor.done) ∨
    (i = .ksfGet ∧ s.klen ≠ 0 ∧ s.cur.toNat < s.cfg.keyMax ∧
      t = ((s.start (encode i)).advanceCursor.withElem (s.byteAt .key s.cur.toNat)).done) := by
  have key : ∀ j : Instr, (j = .ksfSet ∨ j = .vigSetpw) → runCommand j (setContent j) s = .next t →
      (∃ k, k ∈ kindsOf j ∧ t = (s.start (encode j)).raise j k) ∨
      (s.ilen.toNat ≠ 0 ∧ s.ilen.toNat ≤ s.cfg.inMax ∧ s.ilen.toNat ≤ s.cfg.keyMax ∧
        t = ((s.start (encode j)).withKey s.operand).done) := by
    intro j hj h
    rcases runCommand_next.mp h with ⟨-, -, rfl⟩ | ⟨hn, hb⟩
    · exact .inl ⟨.lengthError, by rcases hj with rfl | rfl <;> decide, rfl⟩
    · rcases setContent_ok.mp hb with ⟨-, rfl⟩ | ⟨-, -, rfl⟩ | ⟨h0, hk, rfl⟩
      · exact .inl ⟨.invalidArgument, by rcases hj with rfl | rfl <;> decide, rfl⟩
      · exact .inl ⟨.lengthError, by rcases hj with rfl | rfl <;> decide, rfl⟩
      · refine .inr ⟨h0, ?_, hk, rfl⟩
        rcases hj with rfl | rfl <;> simpa [readsIbuf] using hn
  have vig : ∀ (j : Instr) (f : Byte → Byte → Byte), (j = .vigEnc ∨ j = .vigDec) →
      runCommand j (vigenere j f) s = .next t →
      (∃ k, k ∈ kindsOf j ∧ t = (s.start (encode j)).raise j k) ∨
      (s.ilen.toNat ≤ s.cfg.inMax ∧ ∃ out cur, out.length ≤ outMax s.cfg ∧ s.klen ≠ 0 ∧
        (s.cur.toNat < s.klen.toNat → cur.toNat = (s.cur.toNat + s.ilen.toNat) % s.klen.toNat) ∧
        t = (((s.start (encode j)).withCursor cur).withResult out).done) := by
    intro j f hj h
    rcases runCommand_next.mp h with ⟨-, -, rfl⟩ | ⟨hn, hb⟩
    · exact .inl ⟨.lengthError, by rcases hj with rfl | rfl <;> decide, rfl⟩
    · rcases vigenere_ok hb with ⟨-, rfl⟩ | ⟨hk, out, cur, hl, ho, hs, rfl⟩
      · exact .inl ⟨.notInitialized, by rcases hj with rfl | rfl <;> decide, rfl⟩
      · refine .inr ⟨?_, out, cur, ho, hk, fun hc => ?_, rfl⟩
        · rcases hj with rfl | rfl <;> simpa [readsIbuf] using hn
        · simpa [hl] using scramble_cursor hs hc
  have buf : ∀ (j : Instr) (r : State → Except ErrorKind (List Byte)), readsIbuf j = true →
      ErrorKind.lengthError ∈ kindsOf j → (∀ k, r (s.start (encode j)) = .error k → k ∈ kindsOf j) →
      runCommand j (fun u => deliver j (r u) u) s = .next t →
      (∃ k, k ∈ kindsOf j ∧ t = (s.start (encode j)).raise j k) ∨
      (s.ilen.toNat ≤ s.cfg.inMax ∧ ∃ out cur, out.length ≤ outMax s.cfg ∧ cur = s.cur ∧
        t = (((s.start (encode j)).withCursor cur).withResult out).done) := by
    intro j r hr hlk hk h
    rcases runCommand_next.mp h with ⟨-, -, rfl⟩ | ⟨hn, hb⟩
    · exact .inl ⟨.lengthError, hlk, rfl⟩
    · rcases deliver_ok.mp hb with ⟨k, he, rfl⟩ | ⟨out, -, ho, rfl⟩
      · exact .inl ⟨k, hk k he, rfl⟩
      · exact .inr ⟨by simpa [hr] using hn, out, s.cur, ho, rfl, rfl⟩
  cases i with
  | cobsEnc =>
    rcases buf .cobsEnc (fun u => .ok (cobsEncode u.operand)) rfl (by decide) (by simp) h with h | ⟨hi, out, cur, ho, hc, ht⟩
    · exact .inl h
    · exact .inr (.inl ⟨rfl, hi, out, cur, ho, .inl ⟨hc, nofun, nofun⟩, ht⟩)
  | cobsDec =>
    have hk : ∀ k, cobsDecode (s.start (encode .cobsDec)).operand = .error k → k ∈ kindsOf .cobsDec := by
      intro k; unfold cobsDecode; dsimp only; split
      · simp only [Except.error.injEq]; rintro rfl; decide
      · simp
    rcases buf .cobsDec (fun u => cobsDecode u.operand) rfl (by decide) hk h with h | ⟨hi, out, cur, ho, hc, ht⟩
    · exact .inl h
    · exact .inr (.inl ⟨rfl, hi, out, cur, ho, .inl ⟨hc, nofun, nofun⟩, ht⟩)
  | ksfSet =>
    rcases key .ksfSet (.inl rfl) h with h | h
    · exact .inl h
    · exact .inr (.inr (.inl ⟨.inl rfl, h⟩))
  | vigSetpw =>
    rcases key .vigSetpw (.inr rfl) h with h | h
    · exact .inl h
    · exact .inr (.inr (.inl ⟨.inr rfl, h⟩))
  | ksfRst =>
    rw [exec_ksfRst] at h
    rcases runCommand_next.mp h with ⟨hr, -⟩ | ⟨-, hb⟩
    · simp [readsIbuf] at hr
    · exact .inr (.inr (.inr (.inl ⟨.inl rfl, by simpa [eq_comm] using hb⟩)))
  | vigRstidx =>
    rw [exec_vigRstidx] at h
    rcases runCommand_next.mp h with ⟨hr, -⟩ | ⟨-, hb⟩
    · simp [readsIbuf] at hr
    · exact .inr (.inr (.inr (.inl ⟨.inr rfl, by simpa [eq_comm] using hb⟩)))
  | ksfGet =>
    rw [exec_ksfGet] at h
    rcases runCommand_next.mp h with ⟨hr, -⟩ | ⟨-, hb⟩
    · simp [readsIbuf] at hr
    · rcases getElement_ok.mp hb with ⟨-, rfl⟩ | ⟨hk, hc, rfl⟩
      · exact .inl ⟨.notInitialized, by decide, rfl⟩
      · exact .inr (.inr (.inr (.inr ⟨rfl, hk, hc, rfl⟩)))
  | vigEnc =>
    rcases vig .vigEnc _ (.inl rfl) h with h | ⟨hi, out, cur, ho, hk, hc, ht⟩
    · exact .inl h
    · exact .inr (.inl ⟨rfl, hi, out, cur, ho, .inr ⟨.inl rfl, hk, hc⟩, ht⟩)
  | vigDec =>
    rcases vig .vigDec _ (.inr rfl) h with h | ⟨hi, out, cur, ho, hk, hc, ht⟩
    · exact .inl h
    · exact .inr (.inl ⟨rfl, hi, out, cur, ho, .inr ⟨.inr rfl, hk, hc⟩, ht⟩)
  | xorEnc =>
    rcases buf .xorEnc (fun u => .ok (xorMask u.operand)) rfl (by decide) (by simp) h with h | ⟨hi, out, cur, ho, hc, ht⟩
    · exact .inl h
    · exact .inr (.inl ⟨rfl, hi, out, cur, ho, .inl ⟨hc, nofun, nofun⟩, ht⟩)
  | xorDec =>
    rcases buf .xorDec (fun u => .ok (xorMask u.operand)) rfl (by decide) (by simp) h with h | ⟨hi, out, cur, ho, hc, ht⟩
    · exact .inl h
    · exact .inr (.inl ⟨rfl, hi, out, cur, ho, .inl ⟨hc, nofun, nofun⟩, ht⟩)

/-- No command is refused. -/
theorem exec_ne_refused (i : Instr) (s : State) (r : Refusal) : exec i s ≠ .refused r := by
  cases i <;> simp only [exec_cobsEnc, exec_cobsDec, exec_ksfSet, exec_ksfRst, exec_ksfGet, exec_vigSetpw, exec_vigRstidx,
    exec_vigEnc, exec_vigDec, exec_xorEnc, exec_xorDec] <;> exact runCommand_ne_refused _ _ _ _

/-! ### A step -/

theorem step_nil {s : State} (h : s.inputs = []) : step s = .next s := by
  simp [step, h]

theorem step_cons {s : State} {a : HostAction} {rest : List HostAction} (h : s.inputs = a :: rest) :
    step s = hostAct a { s with inputs := rest } := by
  simp [step, h]

/-- What an access of the host can do, said once: it runs a command, ends with IllegalCommand, writes ILEN or a byte of
IBUF, returns a value, or is the platform's reset. -/
theorem hostAct_cases {a : HostAction} {s t : State} (h : hostAct a s = .next t) :
    (∃ v i, a = .write .reg 0 v ∧ v < 256 ∧ s.status.busy = false ∧ decode s.cfg (BitVec.ofNat 8 v) = .ok i ∧
      exec i s = .next t) ∨
    (∃ v why, a = .write .reg 0 v ∧ v < 256 ∧ s.status.busy = false ∧ decode s.cfg (BitVec.ofNat 8 v) = .error why ∧
      t = s.illegalCommand (BitVec.ofNat 8 v)) ∨
    (∃ v, a = .write .reg 2 v ∧ v < 65536 ∧ s.status.busy = false ∧ t = { s with ilen := BitVec.ofNat 16 v }) ∨
    (∃ j v, a = .write (.bytes .ibuf) j v ∧ j < s.cfg.inMax ∧ v < 256 ∧ s.status.busy = false ∧
      t = { s with ibuf := s.ibuf.store j [BitVec.ofNat 8 v] }) ∨
    (∃ space j v, a = .read space j ∧ (s.status.busy = true → space = .reg ∧ j = 1) ∧
      hostValue s space j = some v ∧ t = { s with returned := some v }) ∨
    (a = .reset ∧ t = State.afterReset s.cfg (s.resets + 1) s.inputs s.returned) := by
  cases a with
  | reset =>
    simp only [hostAct, platformReset, Host.Outcome.next.injEq] at h
    exact .inr (.inr (.inr (.inr (.inr ⟨rfl, h.symm⟩))))
  | read space j =>
    simp only [hostAct, hostRead] at h
    split at h
    · cases h
    · rename_i hb
      split at h
      · rename_i v hv
        simp only [Host.Outcome.next.injEq] at h
        refine .inr (.inr (.inr (.inr (.inl ⟨space, j, v, rfl, ?_, hv, h.symm⟩))))
        intro hbusy
        by_contra hne
        exact hb ⟨hbusy, hne⟩
      · cases h
  | write space j v =>
    simp only [hostAct, hostWrite] at h
    split at h
    · cases h
    · rename_i hb
      have hb : s.status.busy = false := by simpa using hb
      rcases space with _ | (_ | _ | _) <;> dsimp only at h
      · split at h
        · rename_i h0
          subst h0
          split at h
          · rename_i hv
            unfold writeCmd at h
            split at h
            · rename_i i hd
              exact .inl ⟨v, i, rfl, hv, hb, hd, h⟩
            · rename_i why hd
              simp only [Host.Outcome.next.injEq] at h
              exact .inr (.inl ⟨v, why, rfl, hv, hb, hd, h.symm⟩)
          · cases h
        · split at h
          · rename_i h2
            subst h2
            split at h
            · rename_i hv
              simp only [Host.Outcome.next.injEq] at h
              exact .inr (.inr (.inl ⟨v, rfl, hv, hb, h.symm⟩))
            · cases h
          · split at h <;> cases h
      · split at h
        · rename_i hj
          split at h
          · rename_i hv
            simp only [Host.Outcome.next.injEq] at h
            exact .inr (.inr (.inr (.inl ⟨j, v, rfl, hj, hv, hb, h.symm⟩)))
          · cases h
        · cases h
      · split at h <;> cases h
      · cases h

end Sys2Proof.Machine
end

