-- ==== Sys2Proof/Laws/Buffers.lean ====
section
/-! SUPPORT. Loading an operand and taking a result back (rules R91, R109), and the first facts about segments and blocks
(rules R120, R121). -/

namespace Sys2Proof.Machine

/-! ### Operands and results -/

/-- The operand that was loaded is the operand of the next command. -/
theorem load_operand {s : State} {bytes : List Byte} (h : bytes.length < 65536) : (s.load bytes).operand = bytes := by
  have hl : (s.load bytes).ilen.toNat = bytes.length := by simp; omega
  rw [State.operand, hl]
  exact bytesOf_of_store (s := s) rfl rfl

/-- The result that was stored is the one the host reads back. -/
theorem withResult_result {s : State} {out : List Byte} (h : out.length < 65536) : (s.withResult out).result = out := by
  have hl : (s.withResult out).olen.toNat = out.length := by simp; omega
  rw [State.result, hl]
  exact bytesOf_of_store (s := s) rfl rfl

theorem load_byteAt_ibuf (bytes : List Byte) (s : State) (j : Nat) :
    (s.load bytes).byteAt .ibuf j = if h : j < bytes.length then bytes[j] else s.byteAt .ibuf j := by
  rw [byteAt_of_store (s := s) (t := s.load bytes) (a := 0) (bs := bytes) rfl rfl]; simp

theorem withResult_byteAt_obuf (out : List Byte) (s : State) (j : Nat) :
    (s.withResult out).byteAt .obuf j = if h : j < out.length then out[j] else s.byteAt .obuf j := by
  rw [byteAt_of_store (s := s) (t := s.withResult out) (a := 0) (bs := out) rfl rfl]; simp

theorem withKey_byteAt_key (k : List Byte) (s : State) (j : Nat) :
    (s.withKey k).byteAt .key j = if h : j < k.length then k[j] else s.byteAt .key j := by
  rw [byteAt_of_store (s := s) (t := s.withKey k) (a := 0) (bs := k) rfl rfl]; simp

/-! ### Segments and blocks -/

theorem segments_ne_nil (s : List Byte) : segments s ≠ [] := by
  cases s with
  | nil => simp [segments]
  | cons b bs =>
    simp only [segments]
    split
    · simp
    · split <;> simp

theorem segments_nil : segments [] = [[]] := rfl

theorem segments_zero (bs : List Byte) : segments (0 :: bs) = [] :: segments bs := by
  simp [segments]

/-- A byte that is not zero stands at the front of the first segment of what follows it. -/
theorem segments_cons {b : Byte} (h : b ≠ 0) {bs seg : List Byte} {rest : List (List Byte)}
    (hs : segments bs = seg :: rest) : segments (b :: bs) = (b :: seg) :: rest := by
  rw [segments, if_neg h, hs]

theorem fullBlocks_length (count : Nat) (seg : List Byte) (h : 254 * count ≤ seg.length) :
    (fullBlocks count seg).length = 255 * count := by
  induction count generalizing seg with
  | zero => rfl
  | succ n ih =>
    have h2 : 254 * n ≤ (seg.drop 254).length := by simp; omega
    simp only [fullBlocks, List.length_append, List.length_cons, List.length_take, ih _ h2]
    omega

/-- R127: what a segment emits is as long as the segment, one byte more for each full block, and one more again unless it
is the last segment and its length a multiple of 254 that is not 0. -/
theorem emitSegment_length (last : Bool) (seg : List Byte) :
    (emitSegment last seg).length = seg.length + seg.length / 254 +
      (if seg.length ≠ 0 ∧ seg.length % 254 = 0 ∧ last = true then 0 else 1) := by
  by_cases h0 : seg.length = 0
  · simp [emitSegment, h0]
  · have hf := fullBlocks_length (seg.length / 254) seg (by omega)
    by_cases hr : seg.length % 254 = 0
    · cases last <;> simp [emitSegment, h0, hr, hf] <;> omega
    · simp [emitSegment, h0, hr, hf]; omega

end Sys2Proof.Machine
end

