-- ==== Sys2Proof/Laws/PerInstr.lean ====
section
/-! SUPPORT. Facts about every command as syntax, one lemma a constructor. -/

/-- R93, R98: the command's opcode is one of the assigned ones, `0x01` to `0x0B`; in particular a cleared CMD register is
no command. -/
def Sys2Proof.Laws.AssignedOpcode.Statement (i : Sys2Proof.Instr) : Prop :=
  1 ≤ (Sys2Proof.encode i).toNat ∧ (Sys2Proof.encode i).toNat ≤ 0x0B

namespace Sys2Proof.Laws.AssignedOpcode

theorem cobsEnc : Statement .cobsEnc := ⟨by decide, by decide⟩
theorem cobsDec : Statement .cobsDec := ⟨by decide, by decide⟩
theorem ksfSet : Statement .ksfSet := ⟨by decide, by decide⟩
theorem ksfRst : Statement .ksfRst := ⟨by decide, by decide⟩
theorem ksfGet : Statement .ksfGet := ⟨by decide, by decide⟩
theorem vigSetpw : Statement .vigSetpw := ⟨by decide, by decide⟩
theorem vigRstidx : Statement .vigRstidx := ⟨by decide, by decide⟩
theorem vigEnc : Statement .vigEnc := ⟨by decide, by decide⟩
theorem vigDec : Statement .vigDec := ⟨by decide, by decide⟩
theorem xorEnc : Statement .xorEnc := ⟨by decide, by decide⟩
theorem xorDec : Statement .xorDec := ⟨by decide, by decide⟩

end Sys2Proof.Laws.AssignedOpcode
end

