-- ==== Sys2Proof/Tests/Slice0.lean ====
section
/-! SUPPORT. The model's own tests. Expected values are those of the rules' examples and of spec/95_test_vectors.md (the id
of the vector stands with each test). Then, for every statement with hypotheses, a witness that meets them. -/

namespace Sys2Proof.Tests

open Sys2Proof Sys2Proof.Machine

/-! ### Helpers -/

/-- A block with small memories: `IN_MAX = 16`, `KEY_MAX = 4`. -/
def small : Params := { inMax := 16, keyMax := 4, hasVig := true, hasXor := true }

/-- The small block right after reset, with the operand `bytes` loaded. -/
def loaded (bytes : List Byte) : State := (State.afterReset small 0 [] none).load bytes

/-- The small block with the key `4B 45 59` at cursor `c` and the operand `bytes` loaded. -/
def ready (c : Word) (bytes : List Byte) : State :=
  { loaded bytes with key := cellsFrom 0 [0x4B, 0x45, 0x59], klen := 3, cur := c }

/-- The small block with the key `61 62 63` at cursor `c` and the operand `bytes` loaded. -/
def abc (c : Word) (bytes : List Byte) : State :=
  { loaded bytes with key := cellsFrom 0 [0x61, 0x62, 0x63], klen := 3, cur := c }

/-- A view of the state after a command. -/
def after {α : Type} (i : Instr) (s : State) (view : State → α) : Option α :=
  match exec i s with
  | .next t => some (view t)
  | _ => none

/-- A view of the state after a step. -/
def stepped {α : Type} (s : State) (view : State → α) : Option α :=
  match step s with
  | .next t => some (view t)
  | _ => none

/-- The refusal of a step. -/
def refusal (s : State) : Option Refusal :=
  match step s with
  | .refused r => some r
  | _ => none

/-- The small block after reset with one action of the host to come. -/
def asked (a : HostAction) : State := { loaded [] with inputs := [a] }

/-- The bytes `D(n)` of the test vectors: byte `i` is `(i mod 255) + 1`. -/
def ramp (n : Nat) : List Byte := (List.range n).map (fun i => BitVec.ofNat 8 (i % 255 + 1))

/-! ### Well-formedness: one ill-formed term for each check -/

theorem test_legal_reset_block : Config.params.legal = true := by decide
theorem test_illegal_empty_ibuf : Params.legal { small with inMax := 0, keyMax := 0 } = false := by decide
theorem test_illegal_wide_ibuf : Params.legal { small with inMax := 65278 } = false := by decide
theorem test_illegal_empty_key : Params.legal { small with keyMax := 0 } = false := by decide
theorem test_illegal_key_over_ibuf : Params.legal { small with keyMax := 17 } = false := by decide
theorem test_illformed_vig : Instr.wellFormed { small with hasVig := false } .vigEnc = false := by decide
theorem test_illformed_xor : Instr.wellFormed { small with hasXor := false } .xorDec = false := by decide

/-! ### Decoding: the words of R93, bit by bit -/

theorem test_word_cobsEnc : decodeTableWord 8 0b00000001 = some .cobsEnc := by decide
theorem test_word_cobsDec : decodeTableWord 8 0b00000010 = some .cobsDec := by decide
theorem test_word_ksfSet : decodeTableWord 8 0b00000011 = some .ksfSet := by decide
theorem test_word_ksfRst : decodeTableWord 8 0b00000100 = some .ksfRst := by decide
theorem test_word_ksfGet : decodeTableWord 8 0b00000101 = some .ksfGet := by decide
theorem test_word_vigSetpw : decodeTableWord 8 0b00000110 = some .vigSetpw := by decide
theorem test_word_vigRstidx : decodeTableWord 8 0b00000111 = some .vigRstidx := by decide
theorem test_word_vigEnc : decodeTableWord 8 0b00001000 = some .vigEnc := by decide
theorem test_word_vigDec : decodeTableWord 8 0b00001001 = some .vigDec := by decide
theorem test_word_xorEnc : decodeTableWord 8 0b00001010 = some .xorEnc := by decide
theorem test_word_xorDec : decodeTableWord 8 0b00001011 = some .xorDec := by decide
theorem test_word_zero_reserved : decodeTableWord 8 0b00000000 = none := by decide
theorem test_word_after_last_reserved : decodeTableWord 8 0b00001100 = none := by decide

/-! ### Commands -/

/-- T-ENC-8, T-SRC-1. -/
theorem test_cobsEnc_source : after .cobsEnc (loaded [0x11, 0x22, 0x00, 0x33]) State.result =
    some [0x03, 0x11, 0x22, 0x02, 0x33] := by decide

/-- T-ENC-9: zeros at both edges. -/
theorem test_cobsEnc_edge_zeros : after .cobsEnc (loaded [0x00, 0x00, 0x11, 0x00, 0x00]) State.result =
    some [0x01, 0x01, 0x02, 0x11, 0x01, 0x01] := by decide

/-- T-ENC-1, R123. -/
theorem test_encode_empty : cobsEncode [] = [0x01] := by decide

/-- T-ENC-11: one full block, the last segment. -/
theorem test_encode_254 : cobsEncode (ramp 254) = 0xFF :: ramp 254 := by decide +kernel

/-- T-ENC-16: one full block, another segment after it. -/
theorem test_encode_254_more : cobsEncode (ramp 254 ++ [0x00, 0x33]) = 0xFF :: ramp 254 ++ [0x01, 0x02, 0x33] := by
  decide +kernel

/-- T-DEC-12: framed by zeros. -/
theorem test_cobsDec_framed : after .cobsDec (loaded [0x00, 0x00, 0x03, 0x11, 0x22, 0x02, 0x33, 0x00]) State.result =
    some [0x11, 0x22, 0x00, 0x33] := by decide

/-- T-DEC-15: a zero inside a block: ERR, ECODE 5, OLEN 0. -/
theorem test_cobsDec_malformed : after .cobsDec { loaded [0x03, 0x11, 0x00, 0x22, 0x02, 0x33] with olen := 4 }
    (fun t => (t.statusWord, t.olen)) = some (0x54, 0) := by decide

/-- T-DEC-21: a block with code 255 restores no zero. -/
theorem test_decode_full_block :
    (cobsDecode (0xFF :: ramp 254 ++ [0x02, 0x41])).toOption = some (ramp 254 ++ [0x41]) := by
  decide +kernel

/-- T-DEC-25: the last block is shorter than its code byte says. -/
theorem test_decode_short_block : cobsDecode [0x05, 0x11, 0x22] = .ok [0x11, 0x22] := by rfl

/-- T-KSF-1. -/
theorem test_ksfSet_loads : after .ksfSet (loaded [0x4B, 0x45, 0x59])
    (fun t => (t.storedKey, t.klen, t.cur, t.statusWord)) = some ([0x4B, 0x45, 0x59], 3, 0, 0x0A) := by decide

/-- T-KSF-9: an empty key leaves the feeder as it was. -/
theorem test_ksfSet_empty : after .ksfSet (ready 2 [])
    (fun t => (t.storedKey, t.cur, t.statusWord)) = some ([0x4B, 0x45, 0x59], 2, 0x2C) := by decide

/-- T-KSF-5. -/
theorem test_ksfRst_ready : after .ksfRst (ready 2 []) (fun t => (t.cur, t.klen, t.statusWord)) = some (0, 3, 0x0A) := by
  decide

/-- T-ERR-8: the length check does not apply. -/
theorem test_ksfRst_oversize : after .ksfRst { ready 2 [] with ilen := 17 } (fun t => (t.cur, t.statusWord)) =
    some (0, 0x0A) := by decide

/-- T-KSF-4: the cursor wraps. -/
theorem test_ksfGet_wraps : after .ksfGet (ready 2 []) (fun t => (t.elem, t.cur, t.statusWord)) =
    some (0x59, 0, 0x0A) := by decide

/-- T-ERR-6: NotInitialized, with an operand that fits no IBUF. -/
theorem test_ksfGet_uninitialized : after .ksfGet { loaded [] with ilen := 17 } (fun t => (t.elem, t.statusWord)) =
    some (0x00, 0x44) := by decide

/-- T-VIG-15. -/
theorem test_vigSetpw_replaces : after .vigSetpw (abc 2 [0x7A]) (fun t => (t.storedKey, t.cur)) = some ([0x7A], 0) := by
  decide

/-- T-KSF-13, for the password: longer than KEY_MAX. -/
theorem test_vigSetpw_too_long : after .vigSetpw (loaded [1, 2, 3, 4, 5]) (fun t => (t.klen, t.statusWord)) =
    some (0, 0x74) := by decide

/-- T-VIG-14. -/
theorem test_vigRstidx_ready : after .vigRstidx (abc 2 []) (fun t => (t.cur, t.storedKey)) =
    some (0, [0x61, 0x62, 0x63]) := by decide

/-- T-VIG-1: the sum wraps and the cursor wraps. -/
theorem test_vigEnc_wraps : after .vigEnc (abc 0 [0x48, 0x69, 0x21, 0xFF]) (fun t => (t.result, t.cur)) =
    some ([0xA9, 0xCB, 0x84, 0x60], 1) := by decide

/-- T-ERR-5: LengthError comes before NotInitialized. -/
theorem test_vigEnc_priority : after .vigEnc { loaded [] with ilen := 17, olen := 5 } (fun t => (t.statusWord, t.olen)) =
    some (0x74, 0) := by decide

/-- T-VIG-6: a misaligned decode. -/
theorem test_vigDec_misaligned : after .vigDec (abc 2 [0xA9, 0xC7, 0xCF, 0xCD, 0xD1]) (fun t => (t.result, t.cur)) =
    some ([0x46, 0x66, 0x6D, 0x6A, 0x70], 1) := by decide

/-- T-VIG-12: NotInitialized even for empty data. -/
theorem test_vigDec_uninitialized : after .vigDec (loaded []) State.statusWord = some 0x44 := by decide

/-- T-XOR-1. -/
theorem test_xorEnc_masks : after .xorEnc (loaded [0x00, 0x0F, 0xA5, 0xFF, 0x80, 0x7F]) State.result =
    some [0xFF, 0xF0, 0x5A, 0x00, 0x7F, 0x80] := by decide

/-- T-XOR-2, and T-ERR-9: the error of the command before is cleared. -/
theorem test_xorDec_masks : after .xorDec { loaded [0xFF, 0xF0] with status := Status.fail .malformedInput }
    (fun t => (t.result, t.statusWord)) = some ([0x00, 0x0F], 0x02) := by decide

/-! ### Steps -/

/-- T-KSF-7, by the step from reset that runs the word. -/
theorem test_step_runs_word : stepped (State.reset.withFetchWord 8 0x05) (fun t => (t.cmd, t.statusWord)) =
    some (0x05, 0x44) := by decide

/-- T-ERR-4: IllegalCommand comes before LengthError; OLEN and ELEM are kept (T-ERR-1). -/
theorem test_step_illegal : stepped { asked (.write .reg 0 0xFF) with ilen := 17, olen := 5, elem := 0x4B }
    (fun t => (t.cmd, t.statusWord, t.olen, t.elem)) = some (0xFF, 0x64, 5, 0x4B) := by decide

/-- T-HOST-3. -/
theorem test_host_write_olen : refusal (asked (.write .reg 3 7)) = some .notWritable := by decide

/-- T-HOST-4. -/
theorem test_host_read_key : refusal (asked (.read (.bytes .key) 0)) = some .noSuchLocation := by decide

/-- T-HOST-5. -/
theorem test_host_read_reg7 : refusal (asked (.read .reg 7)) = some .noSuchLocation := by decide

/-- T-HOST-6. -/
theorem test_host_write_past_ibuf : refusal (asked (.write (.bytes .ibuf) 16 0)) = some .noSuchLocation := by decide

/-- T-HOST-8. -/
theorem test_host_write_obuf : refusal (asked (.write (.bytes .obuf) 0 1)) = some .notWritable := by decide

/-- R246. -/
theorem test_host_busy : refusal { asked (.write .reg 2 1) with status := Status.started } = some .busyExclusion := by
  decide

/-- T-HOST-7: a read changes no state. -/
theorem test_host_read_elem : stepped { ready 1 [] with elem := 0x4B, inputs := [.read .reg 6] }
    (fun t => (t.returned, t.cur)) = some (some 0x4B, 1) := by decide

/-- R240: reset while BUSY is 1. -/
theorem test_reset_while_busy : stepped { ready 2 [] with status := Status.started, inputs := [.reset] }
    (fun t => (t.statusWord, t.klen, t.cur, t.ibuf)) = some (0x00, 0, 0, []) := by decide

/-- R109: the checks of `EXPECT_OK` and `EXPECT_ERR` on the words of T-KSF-1 and T-DEC-15. -/
theorem test_expect : Script.expectOk 0x0A = true ∧ Script.expectErr .malformedInput 0x54 = true ∧
    Script.expectOk 0x54 = false := by decide

/-! ### Witnesses: states and operands that meet the hypotheses of the statements -/

/-- The invariant holds in a state with a key, a cursor and an operand. -/
theorem ready_inv : BlockInv (ready 2 [0x11, 0x22, 0x00, 0x33]) :=
  ⟨by decide, by decide, by decide, by decide, by decide, by decide, by decide, by decide, by decide, by decide,
    by decide, by decide, by decide⟩

/-- The invariant holds in a state with no key, a full OBUF and a full IBUF. -/
theorem full_inv : BlockInv { loaded (List.replicate 16 0x11) with obuf := cellsFrom 0 (List.replicate 17 0x22), olen := 17 } :=
  ⟨by decide, by decide, by decide, by decide, by decide, by decide, by decide, by decide, by decide, by decide,
    by decide, by decide, by decide⟩

theorem witness_CommandWordsDecodeAsTabled : small.hasVig = true ∧ small.hasXor = true ∧
    (0x0C : Byte).toNat ≥ 0x0C := by decide

theorem witness_AbsentUnitsOpcodesAreUnassigned :
    ({ small with hasVig := false } : Params).hasVig = false ∧ (0x06 : Byte).toNat ≥ 0x06 ∧ (0x09 : Byte).toNat ≤ 0x09 ∧
    ({ small with hasXor := false } : Params).hasXor = false ∧ (0x0A : Byte).toNat ≥ 0x0A ∧ (0x0B : Byte).toNat ≤ 0x0B := by
  decide

theorem witness_CmdWriteRunsTheDecodedCommand : (asked (.write .reg 0 0x0B)).inputs = [.write .reg 0 0x0B] ∧
    (asked (.write .reg 0 0x0B)).status.busy = false ∧
    decode (asked (.write .reg 0 0x0B)).cfg (BitVec.ofNat 8 0x0B) = .ok .xorDec := ⟨rfl, rfl, rfl⟩

theorem witness_UnassignedOpcodeEndsWithIllegalCommand :
    (asked (.write .reg 0 255)).status.busy = false ∧
    decode (asked (.write .reg 0 255)).cfg (BitVec.ofNat 8 255) = .error .reservedOpcode ∧
    decode { small with hasVig := false } 0x06 = .error .absentUnit := ⟨rfl, rfl, rfl⟩

theorem witness_BusyExcludesTheHost :
    ({ asked (.read .reg 0) with status := Status.started } : State).status.busy = true ∧
    ¬ ((Space.reg = .reg) ∧ (0 : Nat) = 1) := by decide

/-- The clauses at the ends of their ranges: CMD 255 and 256, ILEN 65535 and 65536, the last byte of IBUF, a read-only
register. -/
theorem witness_HostWriteActsByTarget : (asked (.write .reg 0 255)).status.busy = false ∧
    (∃ t, step (asked (.write .reg 0 255)) = .next t) ∧ (∃ r, step (asked (.write .reg 0 256)) = .refused r) ∧
    (∃ t, step (asked (.write .reg 2 65535)) = .next t ∧ t.ilen = 0xFFFF) ∧
    (∃ r, step (asked (.write .reg 2 65536)) = .refused r) ∧
    (∃ t, step (asked (.write (.bytes .ibuf) 15 255)) = .next t ∧ t.byteAt .ibuf 15 = 0xFF) ∧
    (∃ r, step (asked (.write (.bytes .ibuf) 15 256)) = .refused r) ∧
    (∃ r, step (asked (.write .reg 3 0)) = .refused r) :=
  ⟨rfl, ⟨_, rfl⟩, ⟨_, rfl⟩, ⟨_, rfl, rfl⟩, ⟨_, rfl⟩, ⟨_, rfl, rfl⟩, ⟨_, rfl⟩, _, rfl⟩

theorem witness_HostReadReturnsTheLocation : (asked (.read .reg 6)).status.busy = false ∧
    outMax (asked (.read (.bytes .obuf) 16)).cfg = 17 ∧
    step (asked (.read (.bytes .obuf) 17)) = .refused .noSuchLocation := ⟨rfl, rfl, rfl⟩

theorem witness_AbsentLocationsAreRefused : (asked (.read .reg 7)).status.busy = false ∧
    (asked (.read .reg 7)).cfg.inMax ≤ 16 ∧ outMax (asked (.read .reg 7)).cfg ≤ 17 := by decide

theorem witness_ReadOnlyLocationsRefuseWrites : (asked (.write .reg 1 0)).status.busy = false ∧
    16 < outMax (asked (.write (.bytes .obuf) 16 0)).cfg := by decide

theorem witness_ResetActionClearsTheBlock : (asked .reset).inputs = [.reset] := rfl

theorem witness_IdleBlockHoldsItsState : (loaded []).inputs = [] := rfl

theorem witness_EveryCommandEndsDoneOrInError : ∃ t, exec .xorEnc (loaded [0x00]) = .next t := ⟨_, rfl⟩

theorem witness_ErrorsArePrecise : ∃ t, exec .ksfGet (loaded []) = .next t ∧ t.status.err = true := ⟨_, rfl, rfl⟩

theorem witness_OversizeOperandsEndWithLengthError : readsIbuf .cobsEnc = true ∧
    small.inMax < ({ loaded [] with ilen := 17 } : State).ilen.toNat ∧
    0 < (loaded [1, 2, 3, 4, 5]).ilen.toNat ∧ (loaded [1, 2, 3, 4, 5]).ilen.toNat ≤ small.inMax ∧
    small.keyMax < (loaded [1, 2, 3, 4, 5]).ilen.toNat ∧
    ∃ t, exec .vigRstidx { loaded [] with ilen := 17 } = .next t :=
  ⟨by decide, by decide, by decide, by decide, by decide, _, rfl⟩

theorem witness_FailedCommandFailsAgain : ∃ t, exec .vigEnc (loaded []) = .next t ∧ t.status.err = true :=
  ⟨_, rfl, rfl⟩

theorem witness_OtherCommandsAreIdempotent : Instr.ksfSet ≠ .ksfGet ∧ Instr.ksfSet ≠ .vigEnc ∧ Instr.ksfSet ≠ .vigDec ∧
    ∃ t, exec .ksfSet (loaded [0x4B]) = .next t := ⟨by decide, by decide, by decide, _, rfl⟩

/-- At the boundary `ILEN = IN_MAX`. -/
theorem witness_CobsEncStoresTheEncoding : (loaded (List.replicate 16 0x11)).cfg.legal = true ∧
    (loaded (List.replicate 16 0x11)).ilen.toNat ≤ small.inMax := by decide

theorem witness_CobsDecStoresTheDecoding : (loaded [0x02, 0x11, 0x01]).cfg.legal = true ∧
    (loaded [0x02, 0x11, 0x01]).ilen.toNat ≤ small.inMax ∧
    cobsDecode (loaded [0x02, 0x11, 0x01]).operand = .ok [0x11, 0x00] := ⟨by decide, by decide, rfl⟩

theorem witness_CobsDecRejectsInnerZeros : (loaded [0x01, 0x00, 0x01]).cfg.legal = true ∧
    (loaded [0x01, 0x00, 0x01]).ilen.toNat ≤ small.inMax ∧ 2 < (loaded [0x01, 0x00, 0x01]).ilen.toNat ∧
    (loaded [0x01, 0x00, 0x01]).byteAt .ibuf 0 ≠ 0 ∧ (loaded [0x01, 0x00, 0x01]).byteAt .ibuf 1 = 0 ∧
    (loaded [0x01, 0x00, 0x01]).byteAt .ibuf 2 ≠ 0 := by decide

theorem witness_EncodedLengthIsAsGiven : segments [0x11, 0x00] = [[0x11]] ++ [[]] ∧
    (List.replicate 254 (1 : Byte)).length = 254 ∧ (0 : Byte) ∉ List.replicate 254 (1 : Byte) :=
  ⟨by decide, List.length_replicate, fun h => absurd (List.eq_of_mem_replicate h) (by decide)⟩

theorem witness_EncoderAtThe254Boundary : (List.replicate 254 (1 : Byte)).length = 254 ∧
    (0 : Byte) ∉ List.replicate 254 (1 : Byte) :=
  ⟨List.length_replicate, fun h => absurd (List.eq_of_mem_replicate h) (by decide)⟩

theorem witness_CobsCommandsRoundTrip : (loaded [0x00]).cfg.legal = true ∧ (loaded [0x00]).ilen.toNat ≤ small.inMax ∧
    ∃ t, exec .cobsEnc (loaded [0x00]) = .next t ∧ t.olen.toNat ≤ small.inMax := ⟨by decide, by decide, _, rfl, by decide⟩

/-- The second clause, with the shortest and the longest block. -/
theorem witness_DecodeWalksBlockByBlock : (0x02 : Byte) ≠ 0 ∧ (0 : Byte) ∉ [(0x11 : Byte)] ∧
    [(0x11 : Byte)].length = (0x02 : Byte).toNat - 1 ∧ (0 : Byte) ∉ [(0x01 : Byte)] ∧ cobsDecode [0x01] = .ok [] ∧
    ([] : List Byte).length ≤ (0x01 : Byte).toNat - 1 ∧ [(0x11 : Byte)].length ≤ (0xFF : Byte).toNat - 1 :=
  ⟨by decide, by decide, by decide, by decide, rfl, by decide, by decide⟩

/-- The three clauses, at the boundaries of KEY_MAX. -/
theorem witness_KsfSetReplacesTheKey : (loaded [1, 2, 3, 4]).cfg.legal = true ∧
    0 < (loaded [1, 2, 3, 4]).ilen.toNat ∧ (loaded [1, 2, 3, 4]).ilen.toNat ≤ small.keyMax ∧
    small.keyMax < (loaded [1, 2, 3, 4, 5]).ilen.toNat ∧ (loaded []).ilen.toNat = 0 := by decide

theorem witness_VigSetpwReplacesThePassword : (loaded [0x7A]).cfg.legal = true ∧ 0 < (loaded [0x7A]).ilen.toNat ∧
    (loaded [0x7A]).ilen.toNat ≤ small.keyMax ∧ small.keyMax < (loaded [1, 2, 3, 4, 5]).ilen.toNat ∧
    (loaded []).ilen.toNat = 0 := by decide

theorem witness_CursorResetsSetTheCursorToZero : Instr.vigRstidx = .ksfRst ∨ Instr.vigRstidx = .vigRstidx := .inr rfl

/-- Both clauses: the feeder uninitialized, and ready. -/
theorem witness_KsfGetEmitsTheNextElement : BlockInv State.reset ∧ State.reset.klen = 0 ∧
    BlockInv (ready 2 [0x11, 0x22, 0x00, 0x33]) ∧ (ready 2 [0x11, 0x22, 0x00, 0x33]).klen ≠ 0 :=
  ⟨⟨by decide, by decide, by decide, by decide, by decide, by decide, by decide, by decide, by decide, by decide,
    by decide, by decide, by decide⟩, rfl, ready_inv, by decide⟩

theorem witness_KsfGetRunsRoundTheKey : BlockInv (ready 2 [0x11, 0x22, 0x00, 0x33]) ∧
    (ready 2 [0x11, 0x22, 0x00, 0x33]).klen ≠ 0 := ⟨ready_inv, by decide⟩

theorem witness_FeederLifeCycleIsAsTabled : BlockInv (ready 2 [0x11, 0x22, 0x00, 0x33]) ∧
    (∃ t, exec .ksfSet (ready 2 [0x11, 0x22, 0x00, 0x33]) = .next t ∧ t.status.err = false ∧ t.byteAt .key 3 = 0x33) ∧
    (∃ t, exec .vigDec (ready 2 [0x11, 0x22, 0x00, 0x33]) = .next t ∧ t.status.err = false) ∧
    (∃ t, exec .vigEnc State.reset = .next t ∧ t.status.err = true) :=
  ⟨ready_inv, ⟨_, rfl, rfl, rfl⟩, ⟨_, rfl, rfl⟩, ⟨_, rfl, rfl⟩⟩

theorem witness_OnlyKeyLoadsWriteTheKey : (∃ t, exec .vigRstidx (ready 2 []) = .next t) ∧
    (HostAction.write (.bytes .ibuf) 0 0 ≠ .reset) ∧ (∀ v, HostAction.write (.bytes .ibuf) 0 0 ≠ .write .reg 0 v) ∧
    ∃ t, step (asked (.write (.bytes .ibuf) 0 0)) = .next t := ⟨⟨_, rfl⟩, by decide, fun _ => by simp, _, rfl⟩

/-- The three clauses: too long, no key, and a key with `ILEN = IN_MAX`. -/
theorem witness_VigEncAddsTheKeystream :
    BlockInv (ready 2 [0x11, 0x22, 0x00, 0x33]) ∧ (ready 2 [0x11, 0x22, 0x00, 0x33]).ilen.toNat ≤ small.inMax ∧
    (ready 2 [0x11, 0x22, 0x00, 0x33]).klen ≠ 0 ∧ BlockInv { ready 2 [0x11, 0x22, 0x00, 0x33] with ilen := 17 } ∧
    small.inMax < (17 : Word).toNat :=
  ⟨ready_inv, by decide, by decide, ⟨ready_inv.1, ready_inv.2, ready_inv.3, ready_inv.4, ready_inv.5, ready_inv.6,
    ready_inv.7, ready_inv.8, ready_inv.9, ready_inv.10, ready_inv.11, ready_inv.12, ready_inv.13⟩, by decide⟩

/-- The second clause of the same two statements: no key, `ILEN = IN_MAX`. -/
theorem witness_VigDecSubtractsTheKeystream :
    BlockInv { loaded (List.replicate 16 0x11) with obuf := cellsFrom 0 (List.replicate 17 0x22), olen := 17 } ∧
    (loaded (List.replicate 16 0x11)).ilen.toNat ≤ small.inMax ∧ (loaded (List.replicate 16 0x11)).klen = 0 ∧
    (ready 2 [0x11, 0x22, 0x00, 0x33]).klen ≠ 0 := ⟨full_inv, by decide, by decide, by decide⟩

theorem witness_VigenereStreamsAcrossCommands : BlockInv (ready 2 [0x11, 0x22, 0x00, 0x33]) ∧
    (ready 2 [0x11, 0x22, 0x00, 0x33]).klen ≠ 0 ∧ ([0x48, 0x65] ++ [0x6C] : List Byte).length ≤ small.inMax :=
  ⟨ready_inv, by decide, by decide⟩

theorem witness_VigenereCommandsRoundTrip : BlockInv (ready 2 [0x11, 0x22, 0x00, 0x33]) ∧
    (ready 2 [0x11, 0x22, 0x00, 0x33]).klen ≠ 0 ∧ (ready 2 [0x11, 0x22, 0x00, 0x33]).ilen.toNat ≤ small.inMax :=
  ⟨ready_inv, by decide, by decide⟩

/-- Both clauses, at `ILEN = IN_MAX` and one past it. -/
theorem witness_XorCommandsMaskEveryByte : (loaded (List.replicate 16 0x11)).ilen.toNat ≤ small.inMax ∧
    small.inMax < ({ loaded [] with ilen := 17 } : State).ilen.toNat := by decide

theorem witness_XorCommandsAreAnInvolution : (loaded (List.replicate 16 0x11)).ilen.toNat ≤ small.inMax := by decide

theorem witness_CobsEncRefinesItsPseudocode : (loaded (List.replicate 16 0x11)).ilen.toNat ≤ small.inMax := by decide

theorem witness_CobsDecRefinesItsPseudocode : (loaded [0x01, 0x00, 0x01]).ilen.toNat ≤ small.inMax := by decide

theorem witness_CommandsCompleteWithoutAddressFault : BlockInv
    { loaded (List.replicate 16 0x11) with obuf := cellsFrom 0 (List.replicate 17 0x22), olen := 17 } := full_inv

theorem witness_StepKeepsTheInvariant : BlockInv (ready 2 [0x11, 0x22, 0x00, 0x33]) ∧
    ∃ t, step ((ready 2 [0x11, 0x22, 0x00, 0x33]).withFetchWord 8 0x08) = .next t := ⟨ready_inv, _, rfl⟩

/-- The three cases: an allowed access, a refused one, and none to come. -/
theorem witness_StepRefusesExactlyWhatIsNotAllowed :
    BlockInv { ready 2 [0x11, 0x22, 0x00, 0x33] with inputs := [.write (.bytes .ibuf) 15 255] } ∧
    (ready 2 [0x11, 0x22, 0x00, 0x33]).status.busy = false ∧
    (HostAction.write (.bytes .ibuf) 15 255).allowed small = true ∧
    (HostAction.write (.bytes .ibuf) 16 255).allowed small = false ∧
    (∃ t, step { ready 2 [0x11, 0x22, 0x00, 0x33] with inputs := [.write (.bytes .ibuf) 15 255] } = .next t) ∧
    (∃ r, step { ready 2 [0x11, 0x22, 0x00, 0x33] with inputs := [.write (.bytes .ibuf) 16 255] } = .refused r) ∧
    (∃ t, step (ready 2 [0x11, 0x22, 0x00, 0x33]) = .next t) :=
  ⟨⟨ready_inv.1, ready_inv.2, ready_inv.3, ready_inv.4, ready_inv.5, ready_inv.6, ready_inv.7, ready_inv.8,
    ready_inv.9, ready_inv.10, ready_inv.11, ready_inv.12, ready_inv.13⟩, rfl, by decide, by decide, ⟨_, rfl⟩,
    ⟨_, rfl⟩, _, rfl⟩

theorem witness_StepNeverShowsBusy : (asked (.write .reg 0 1)).status.busy = false ∧
    ∃ t, step (asked (.write .reg 0 1)) = .next t := ⟨rfl, _, rfl⟩

/-- The first access is taken and the second stays. -/
theorem witness_StepKeepsParametersAndTakesOneAccess :
    ∃ t, step { loaded [] with inputs := [.write .reg 2 1, .read .reg 2] } = .next t := ⟨_, rfl⟩

theorem witness_EachRegisterHasItsWriters : producesBuffer .ksfSet = false ∧ Instr.ksfSet ≠ .ksfGet ∧
    ∃ t, exec .ksfSet (loaded [0x4B]) = .next t := ⟨rfl, by decide, _, rfl⟩

theorem witness_CobsAndXorCommandsIgnoreTheFeeder : ∃ t, exec .cobsDec (ready 2 [0x02, 0x11]) = .next t := ⟨_, rfl⟩

theorem witness_KeyBeyondItsLengthIsImmaterial : BlockInv (ready 2 [0x11, 0x22, 0x00, 0x33]) ∧
    (∀ j, j < (ready 2 [0x11, 0x22, 0x00, 0x33]).klen.toNat →
      State.byteAt { ready 2 [0x11, 0x22, 0x00, 0x33] with key := cellsFrom 0 [0x4B, 0x45, 0x59, 0xFF] } .key j =
        (ready 2 [0x11, 0x22, 0x00, 0x33]).byteAt .key j) ∧
    ∃ t, exec .vigEnc (ready 2 [0x11, 0x22, 0x00, 0x33]) = .next t := by
  refine ⟨ready_inv, ?_, _, rfl⟩
  have h : ∀ j, j < 3 →
      State.byteAt { ready 2 [0x11, 0x22, 0x00, 0x33] with key := cellsFrom 0 [0x4B, 0x45, 0x59, 0xFF] } .key j =
        (ready 2 [0x11, 0x22, 0x00, 0x33]).byteAt .key j := by decide
  exact h

/-- An IBUF that differs at ILEN and beyond, for a command that reads it. -/
theorem witness_IbufBeyondTheOperandIsImmaterial : readsIbuf .xorEnc = true ∧ (loaded [0x11, 0x22]).ilen.toNat ≤ small.inMax ∧
    (∀ j, j < 2 → State.byteAt { loaded [0x11, 0x22] with ibuf := cellsFrom 0 [0x11, 0x22, 0x99] } .ibuf j =
      (loaded [0x11, 0x22]).byteAt .ibuf j) ∧ (loaded [0x11, 0x22]).ilen.toNat = 2 ∧
    ∃ t, exec .xorEnc (loaded [0x11, 0x22]) = .next t := ⟨rfl, by decide, by decide, rfl, _, rfl⟩

theorem witness_LoadDeliversTheOperand : ({ loaded [] with inputs := Script.load [0x11, 0x22] } : State).cfg.legal = true ∧
    ({ loaded [] with inputs := Script.load [0x11, 0x22] } : State).status.busy = false ∧
    [(0x11 : Byte), 0x22].length ≤ small.inMax := by decide

end Sys2Proof.Tests
end

section
/-! One step of the machine: an idle one (R228), and what every step keeps of what is not the block's (R41, R73 (e)). -/

namespace Sys2Proof.Machine

/-- Settles O13: with no access to come a step is idle. -/
theorem idleBlockHoldsItsState : Obligations.IdleBlockHoldsItsState :=
  fun _ h => step_nil h

/-- No command touches what is not the block's: the parameters, the count of resets and the host's side. -/
theorem exec_sameSurround {i : Instr} {s t : State} (h : exec i s = .next t) : SameSurround s t := by
  rcases exec_cases h with ⟨k, -, rfl⟩ | ⟨-, -, out, cur, -, -, rfl⟩ | ⟨-, -, -, -, rfl⟩ | ⟨-, rfl⟩ | ⟨-, -, -, rfl⟩ <;>
    exact ⟨rfl, rfl, rfl, rfl⟩

/-- One access of the host, once taken, keeps the parameters and the accesses still to come. -/
theorem hostAct_cfg_inputs {a : HostAction} {s t : State} (h : hostAct a s = .next t) :
    t.cfg = s.cfg ∧ t.inputs = s.inputs := by
  rcases hostAct_cases h with ⟨v, i, -, -, -, -, hexec⟩ | ⟨v, why, -, -, -, -, rfl⟩ | ⟨v, -, -, -, rfl⟩ |
    ⟨j, v, -, -, -, -, rfl⟩ | ⟨space, j, v, -, -, -, rfl⟩ | ⟨-, rfl⟩
  · have hs := exec_sameSurround hexec
    exact ⟨hs.cfg, hs.inputs⟩
  all_goals exact ⟨rfl, rfl⟩

/-- Settles O53: an idle step changes nothing, and any other is one access taken from the front of the list. -/
theorem stepKeepsParametersAndTakesOneAccess : Obligations.StepKeepsParametersAndTakesOneAccess := by
  intro s t h
  cases hin : s.inputs with
  | nil =>
    rw [step_nil hin] at h
    cases h
    exact ⟨rfl, hin⟩
  | cons a rest =>
    rw [step_cons hin] at h
    exact hostAct_cfg_inputs h

end Sys2Proof.Machine
end

section
/-! Every update of the state keeps the invariant `BlockInv` (R5, R24, R26 to R28, R33, R34, R210), one lemma an update, and
so does every command, every access of the host and every step. -/

namespace Sys2Proof.Machine

/-! ### STATUS -/

/-- R24: a successful end after no error keeps STATUS consistent. -/
theorem finish_consistent {f : Status} (h : f.consistent = true) (he : f.err = false) : f.finish.consistent = true := by
  simp_all [Status.consistent, Status.finish]

/-- R24: the failing end leaves STATUS consistent, whatever the error kind. -/
theorem fail_consistent (k : ErrorKind) : (Status.fail k).consistent = true := by
  cases k <;> decide

/-- R210, R211: no command ends with one of the two reserved error kinds. -/
theorem kindsOf_raisedCode {i : Instr} {k : ErrorKind} (h : k ∈ kindsOf i) : (Status.fail k).raisedCode = true := by
  have hall : ∀ k ∈ kindsOf i, (Status.fail k).raisedCode = true := by cases i <;> decide
  exact hall k h

/-! ### One update -/

theorem BlockInv.start {s : State} (h : BlockInv s) (v : Byte) : BlockInv (s.start v) :=
  { h with status := rfl, code := rfl }

theorem BlockInv.done {s : State} (h : BlockInv s) (he : s.status.err = false) : BlockInv s.done :=
  { h with status := finish_consistent h.status he }

theorem BlockInv.raise {s : State} (h : BlockInv s) {i : Instr} {k : ErrorKind} (hk : k ∈ kindsOf i) :
    BlockInv (s.raise i k) :=
  { h with
    status := fail_consistent k
    code := kindsOf_raisedCode hk
    olen := by
      rw [raise_olen, raise_cfg]
      split
      · exact Nat.zero_le _
      · exact h.olen }

theorem BlockInv.illegalCommand {s : State} (h : BlockInv s) (v : Byte) : BlockInv (s.illegalCommand v) :=
  { h with status := rfl, code := rfl }

/-- R6, R33: a result that fits OBUF. -/
theorem BlockInv.withResult {s : State} (h : BlockInv s) {out : List Byte} (hout : out.length ≤ outMax s.cfg) :
    BlockInv (s.withResult out) :=
  { h with
    olen := (Nat.mod_le _ _).trans hout
    obufWf := store_wf 0 out h.obufWf
    obufIn := store_within 0 out h.obufIn (by simpa using hout) }

/-- R27, R28, R34: a key that fits KEY; the cursor is 0, which is below the length of any key but the empty one. -/
theorem BlockInv.withKey {s : State} (h : BlockInv s) {k : List Byte} (hk : k.length ≤ s.cfg.keyMax) :
    BlockInv (s.withKey k) :=
  { h with
    klen := (Nat.mod_le _ _).trans hk
    uninit := fun _ => rfl
    ready := fun hne => Nat.pos_of_ne_zero fun h0 => hne (BitVec.eq_of_toNat_eq h0)
    keyWf := store_wf 0 k h.keyWf
    keyIn := store_within 0 k h.keyIn (by simpa using hk) }

/-- R28: the cursor of an uninitialized feeder is 0, that of a ready one lies in the key. -/
theorem BlockInv.withCursor {s : State} (h : BlockInv s) {c : Word} (h0 : s.klen = 0 → c = 0)
    (hr : s.klen ≠ 0 → c.toNat < s.klen.toNat) : BlockInv (s.withCursor c) :=
  { h with uninit := h0, ready := hr }

theorem BlockInv.klen_pos {s : State} (h : BlockInv s) (hk : s.klen ≠ 0) : 0 < s.klen.toNat :=
  Nat.zero_lt_of_lt (h.ready hk)

theorem BlockInv.resetCursor {s : State} (h : BlockInv s) : BlockInv s.resetCursor :=
  h.withCursor (fun _ => rfl) h.klen_pos

/-- R184: on a ready feeder the cursor wraps at the length of the key. -/
theorem BlockInv.advanceCursor {s : State} (h : BlockInv s) (hk : s.klen ≠ 0) : BlockInv s.advanceCursor :=
  h.withCursor (fun h0 => absurd h0 hk) fun _ =>
    (advanceCursor_toNat (h.ready hk)).trans_lt (Nat.mod_lt _ (h.klen_pos hk))

theorem BlockInv.withElem {s : State} (h : BlockInv s) (v : Byte) : BlockInv (s.withElem v) := { h with }

theorem BlockInv.withIlen {s : State} (h : BlockInv s) (n : Word) : BlockInv { s with ilen := n } := { h with }

/-- R62: a byte of IBUF written by the host. -/
theorem BlockInv.writeIbuf {s : State} (h : BlockInv s) {j : Nat} (hj : j < s.cfg.inMax) (v : Byte) :
    BlockInv { s with ibuf := s.ibuf.store j [v] } :=
  { h with ibufWf := store_wf j [v] h.ibufWf, ibufIn := store_within j [v] h.ibufIn hj }

theorem BlockInv.withReturned {s : State} (h : BlockInv s) (r : Option Word) : BlockInv { s with returned := r } :=
  { h with }

theorem BlockInv.withInputs {s : State} (h : BlockInv s) (rest : List HostAction) : BlockInv { s with inputs := rest } :=
  { h with }

/-- R36: the state after reset of a block with legal parameters. -/
theorem afterReset_blockInv {p : Params} (h : p.legal = true) (n : Nat) (inputs : List HostAction) (r : Option Word) :
    BlockInv (State.afterReset p n inputs r) :=
  { legal := h, status := rfl, code := rfl, klen := Nat.zero_le _, uninit := fun _ => rfl,
    ready := fun hne => absurd rfl hne, olen := Nat.zero_le _, ibufWf := rfl, obufWf := rfl, keyWf := rfl,
    ibufIn := rfl, obufIn := rfl, keyIn := rfl }

/-! ### A command, an access of the host, a step -/

/-- Every command keeps the invariant. -/
theorem BlockInv.of_exec {i : Instr} {s t : State} (h : BlockInv s) (hex : exec i s = .next t) : BlockInv t := by
  have hst := h.start (encode i)
  rcases exec_cases hex with ⟨k, hk, rfl⟩ | ⟨-, -, out, cur, hout, hcur, rfl⟩ | ⟨-, -, -, hkey, rfl⟩ | ⟨-, rfl⟩ |
    ⟨-, hk, -, rfl⟩
  · exact hst.raise hk
  · have hc : BlockInv ((s.start (encode i)).withCursor cur) := by
      rcases hcur with ⟨rfl, -, -⟩ | ⟨-, hk, hcur⟩
      · exact hst.withCursor h.uninit h.ready
      · refine hst.withCursor (fun h0 => absurd h0 hk) fun _ => ?_
        rw [hcur (h.ready hk)]
        exact Nat.mod_lt _ (h.klen_pos hk)
    exact (hc.withResult hout).done rfl
  · have hfits : s.operand.length ≤ s.cfg.keyMax := by rwa [operand_length]
    exact (hst.withKey hfits).done rfl
  · exact hst.resetCursor.done rfl
  · exact ((hst.advanceCursor hk).withElem _).done rfl

/-- Every access of the host keeps the invariant. -/
theorem BlockInv.of_hostAct {a : HostAction} {s t : State} (h : BlockInv s) (ha : hostAct a s = .next t) : BlockInv t := by
  rcases hostAct_cases ha with ⟨v, i, -, -, -, -, hex⟩ | ⟨v, why, -, -, -, -, rfl⟩ | ⟨v, -, -, -, rfl⟩ |
    ⟨j, v, -, hj, -, -, rfl⟩ | ⟨space, j, v, -, -, -, rfl⟩ | ⟨-, rfl⟩
  · exact h.of_exec hex
  · exact h.illegalCommand _
  · exact h.withIlen _
  · exact h.writeIbuf hj _
  · exact h.withReturned _
  · exact afterReset_blockInv h.legal ..

/-- Settles O49: a step is idle or one access of the host, and each of these keeps the invariant. -/
theorem stepKeepsTheInvariant : Obligations.StepKeepsTheInvariant := by
  intro s t h hstep
  cases hin : s.inputs with
  | nil =>
    rw [step_nil hin] at hstep
    cases hstep
    exact h
  | cons a rest =>
    rw [step_cons hin] at hstep
    exact (h.withInputs rest).of_hostAct hstep

end Sys2Proof.Machine
end

section
/-! Every result fits OBUF (R6, R80, R127): how long the encoder's and the decoder's output can be, and from that and the
invariant, that no command ends in the fault `noSuchByte`. -/

namespace Sys2Proof.Machine

/-! ### The length of the encoder's output -/

/-- The bytes of a buffer counted by its segments, one more for each: one more than the buffer has. -/
def spanOf (segs : List (List Byte)) : Nat := (segs.map (fun seg => seg.length + 1)).sum

theorem spanOf_cons (seg : List Byte) (segs : List (List Byte)) : spanOf (seg :: segs) = seg.length + 1 + spanOf segs := by
  simp [spanOf]

theorem spanOf_nil : spanOf [] = 0 := rfl

/-- R120: the zeros that the segments leave out are one fewer than the segments. -/
theorem spanOf_segments (s : List Byte) : spanOf (segments s) = s.length + 1 := by
  induction s with
  | nil => rfl
  | cons b bs ih =>
    by_cases hb : b = 0
    · rw [hb, segments_zero, spanOf_cons, ih, List.length_nil, List.length_cons]
      omega
    · obtain ⟨seg, rest, hseg⟩ := List.exists_cons_of_ne_nil (segments_ne_nil bs)
      rw [hseg, spanOf_cons] at ih
      rw [segments_cons hb hseg, spanOf_cons, List.length_cons, List.length_cons]
      omega

/-- R127: a segment emits at most one byte more than its bytes and its full blocks. -/
theorem emitSegment_length_le (last : Bool) (seg : List Byte) :
    (emitSegment last seg).length ≤ seg.length + seg.length / 254 + 1 := by
  rw [emitSegment_length]
  split <;> omega

theorem emitSegments_length_le (seg : List Byte) (rest : List (List Byte)) :
    (emitSegments (seg :: rest)).length ≤ spanOf (seg :: rest) + (spanOf (seg :: rest) - 1) / 254 := by
  induction rest generalizing seg with
  | nil =>
    have h := emitSegment_length_le true seg
    simp only [emitSegments, spanOf_cons, spanOf_nil]
    omega
  | cons next rest ih =>
    have h := emitSegment_length_le false seg
    have hrest := ih next
    simp only [emitSegments, List.length_append, spanOf_cons] at hrest ⊢
    omega

/-- R127: the upper bound on the length of the encoding. -/
theorem cobsEncode_length_le (s : List Byte) : (cobsEncode s).length ≤ s.length + s.length / 254 + 1 := by
  obtain ⟨seg, rest, hseg⟩ := List.exists_cons_of_ne_nil (segments_ne_nil s)
  have hspan := spanOf_segments s
  have h := emitSegments_length_le seg rest
  rw [hseg] at hspan
  rw [hspan] at h
  rw [cobsEncode, hseg]
  omega

/-! ### The length of the decoder's output -/

theorem stripZeros_length_le (y : List Byte) : (stripZeros y).length ≤ y.length := by
  have h1 := (List.dropWhile_sublist (· == (0 : Byte)) (l := y)).length_le
  have h2 := (List.dropWhile_sublist (· == (0 : Byte)) (l := (y.dropWhile (· == 0)).reverse)).length_le
  rw [List.length_reverse] at h2
  rw [stripZeros, List.length_reverse]
  exact h2.trans h1

/-- R140: the zero that the walk restores after a block takes no more room than the block's code byte did. -/
theorem walkBlocks_length_le (fuel : Nat) (y : List Byte) : (walkBlocks fuel y).length ≤ y.length := by
  induction fuel generalizing y with
  | zero => cases y <;> simp [walkBlocks]
  | succ fuel ih =>
    cases y with
    | nil => simp [walkBlocks]
    | cons c rest =>
      have hrest := ih (rest.drop (c.toNat - 1))
      rw [List.length_drop] at hrest
      simp only [walkBlocks, List.length_append, List.length_take, List.length_cons]
      split
      · rw [List.length_singleton]; omega
      · rw [List.length_nil]; omega

/-- R140: the decoder's output is no longer than its input. -/
theorem cobsDecode_length_le {y out : List Byte} (h : cobsDecode y = .ok out) : out.length ≤ y.length := by
  unfold cobsDecode at h
  dsimp only at h
  split at h
  · cases h
  · cases h
    exact (walkBlocks_length_le ..).trans (stripZeros_length_le y)

/-! ### Each body completes -/

/-- R6: an output no longer than the operand fits OBUF. -/
theorem inMax_le_outMax (p : Params) : p.inMax ≤ outMax p := by
  rw [outMax]; omega

/-- R6, R127: OBUF has the bytes for the encoding of every operand that fits IBUF. -/
theorem cobsEncode_fits {x : List Byte} {p : Params} (h : x.length ≤ p.inMax) : (cobsEncode x).length ≤ outMax p := by
  have hlen := cobsEncode_length_le x
  have hdiv : x.length / 254 ≤ p.inMax / 254 := Nat.div_le_div_right h
  rw [outMax]; omega

/-- R200, R201: the mask keeps the length. -/
theorem xorMask_fits {x : List Byte} {p : Params} (h : x.length ≤ p.inMax) : (xorMask x).length ≤ outMax p := by
  rw [xorMask, List.length_map]
  exact h.trans (inMax_le_outMax p)

/-- R96: a command completes when its own rule does on an operand that fits. -/
theorem runCommand_completes {i : Instr} {body : State → Except Fault State} {s : State}
    (h : (readsIbuf i = true → s.ilen.toNat ≤ s.cfg.inMax) → ∃ t, body (s.start (encode i)) = .ok t) :
    ∃ t, runCommand i body s = .next t := by
  by_cases hover : readsIbuf i = true ∧ s.cfg.inMax < s.ilen.toNat
  · exact ⟨_, runCommand_oversize hover.1 hover.2⟩
  · have hfits : readsIbuf i = true → s.ilen.toNat ≤ s.cfg.inMax := fun hr => not_lt.mp fun hlt => hover ⟨hr, hlt⟩
    obtain ⟨t, hbody⟩ := h hfits
    exact ⟨t, runCommand_fits hfits hbody⟩

theorem deliver_completes {i : Instr} {r : Except ErrorKind (List Byte)} {s : State}
    (h : ∀ out, r = .ok out → out.length ≤ outMax s.cfg) : ∃ t, deliver i r s = .ok t := by
  cases r with
  | error k => exact ⟨_, deliver_ok.mpr (.inl ⟨k, rfl, rfl⟩)⟩
  | ok out => exact ⟨_, deliver_ok.mpr (.inr ⟨out, rfl, h out rfl, rfl⟩)⟩

/-- R162: a key load tests the length of the operand before it stores the key, so it completes from every state. -/
theorem setContent_completes (i : Instr) (s : State) : ∃ t, setContent i s = .ok t := by
  by_cases h0 : s.ilen.toNat = 0
  · exact ⟨_, setContent_ok.mpr (.inl ⟨h0, rfl⟩)⟩
  · rcases lt_or_ge s.cfg.keyMax s.ilen.toNat with hk | hk
    · exact ⟨_, setContent_ok.mpr (.inr (.inl ⟨h0, hk, rfl⟩))⟩
    · exact ⟨_, setContent_ok.mpr (.inr (.inr ⟨h0, hk, rfl⟩))⟩

/-- R164, R181: a cursor reset has no failing end. -/
theorem cursorReset_completes (i : Instr) (s : State) :
    ∃ t, runCommand i (fun u => .ok u.resetCursor.done) s = .next t :=
  runCommand_completes fun _ => ⟨_, rfl⟩

/-- R27, R28: the cursor of a ready feeder addresses a byte of KEY. -/
theorem BlockInv.cur_lt_keyMax {s : State} (h : BlockInv s) (hk : s.klen ≠ 0) : s.cur.toNat < s.cfg.keyMax :=
  (h.ready hk).trans_le h.klen

theorem BlockInv.getElement_completes {s : State} (h : BlockInv s) (i : Instr) : ∃ t, getElement i s = .ok t := by
  by_cases hk : s.klen = 0
  · exact ⟨_, getElement_ok.mpr (.inl ⟨hk, rfl⟩)⟩
  · exact ⟨_, getElement_ok.mpr (.inr ⟨hk, h.cur_lt_keyMax hk, rfl⟩)⟩

theorem BlockInv.vigenere_completes {s : State} (h : BlockInv s) (hfits : s.ilen.toNat ≤ s.cfg.inMax) (i : Instr)
    (f : Byte → Byte → Byte) : ∃ t, vigenere i f s = .ok t := by
  by_cases hk : s.klen = 0
  · exact ⟨_, if_pos hk⟩
  · obtain ⟨out, u, hscr, hlen, hu, -, -⟩ := scramble_ready f s.operand (h.ready hk) h.klen
    have hcfg : u.cfg = s.cfg := by rw [hu]; rfl
    have hout : out.length ≤ outMax u.cfg := by
      rw [hlen, operand_length, hcfg]
      exact hfits.trans (inMax_le_outMax _)
    rw [vigenere, if_neg hk, hscr]
    exact deliver_completes fun out' h' => by cases h'; exact hout

/-- A command that delivers a function of its operand completes when the function's output fits OBUF. -/
theorem deliver_command_completes {i : Instr} (f : List Byte → Except ErrorKind (List Byte)) {s : State}
    (hr : readsIbuf i = true)
    (h : ∀ x out, x.length ≤ s.cfg.inMax → f x = .ok out → out.length ≤ outMax s.cfg) :
    ∃ t, runCommand i (fun u => deliver i (f u.operand) u) s = .next t :=
  runCommand_completes fun hfits => deliver_completes fun out hout =>
    h _ out ((operand_length _).trans_le (hfits hr)) hout

/-- Settles O50: each result fits OBUF, each key load tests KEY_MAX first, and the cursor of a ready feeder lies in KEY. -/
theorem commandsCompleteWithoutAddressFault : Obligations.CommandsCompleteWithoutAddressFault := by
  intro i s h
  have hst := h.start (encode i)
  cases i with
  | cobsEnc =>
    exact deliver_command_completes (fun x => .ok (cobsEncode x)) rfl fun x out hx ho => by
      cases ho; exact cobsEncode_fits hx
  | cobsDec =>
    exact deliver_command_completes cobsDecode rfl fun x out hx ho =>
      ((cobsDecode_length_le ho).trans hx).trans (inMax_le_outMax _)
  | ksfSet | vigSetpw => exact runCommand_completes fun _ => setContent_completes _ _
  | ksfRst => exact cursorReset_completes .ksfRst s
  | vigRstidx => exact cursorReset_completes .vigRstidx s
  | ksfGet => exact runCommand_completes fun _ => hst.getElement_completes _
  | vigEnc | vigDec => exact runCommand_completes fun hfits => hst.vigenere_completes (hfits rfl) _ _
  | xorEnc | xorDec =>
    exact deliver_command_completes (fun x => .ok (xorMask x)) rfl fun x out hx ho => by
      cases ho; exact xorMask_fits hx

end Sys2Proof.Machine
end

section
/-! The registers (rule R20): their values after reset (R36), the layout of STATUS (R24), what every command leaves in CMD
and STATUS (R96, R97, R218), and which commands and accesses of the host write which other register. -/

namespace Sys2Proof.Machine

/-! ### After reset -/

/-- Settles O12: each register is as `State.afterReset` sets it, and a memory with no written byte reads as free values. -/
theorem resetStateIsAsTabled : Obligations.ResetStateIsAsTabled :=
  ⟨rfl, rfl, rfl, rfl, rfl, rfl, rfl, rfl, rfl, rfl, rfl, rfl, fun b j => afterReset_byteAt _ _ _ _ b j⟩

/-- Settles O48: the parameters of `State.reset` are legal, and a reset block with legal parameters meets the invariant. -/
theorem resetMeetsTheInvariant : Obligations.ResetMeetsTheInvariant :=
  afterReset_blockInv (by decide) ..

/-! ### The word of STATUS -/

/-- Four flags below four bits, as R24 lays out STATUS. -/
theorem nibble_append_flags_getLsbD (e : BitVec 4) (f3 f2 f1 f0 : Bool) (j : Nat) :
    (e ++ (BitVec.ofBool f3 ++ (BitVec.ofBool f2 ++ (BitVec.ofBool f1 ++ BitVec.ofBool f0)))).getLsbD j =
      if j < 4 then [f0, f1, f2, f3].getD j false else e.getLsbD (j - 4) := by
  simp only [BitVec.getLsbD_append, BitVec.getLsbD_ofBool]
  match j with
  | 0 | 1 | 2 | 3 => simp
  | j + 4 => simp

/-- R24: the high four bits of the word. -/
theorem statusWord_extractLsb' (s : State) : s.statusWord.extractLsb' 4 4 = s.status.ecode :=
  BitVec.extractLsb'_append_eq_left

/-- R35: KRDY says whether a key is stored. -/
theorem krdy_iff (s : State) : s.krdy = true ↔ s.klen ≠ 0 := decide_eq_true_iff

/-- Settles O14: the word is ECODE above the four flags, and KRDY is computed from KLEN. -/
theorem statusWordHasTheFieldsInPlace : Obligations.StatusWordHasTheFieldsInPlace := by
  intro s
  have hbit (j : Nat) := nibble_append_flags_getLsbD s.status.ecode s.krdy s.status.err s.status.done s.status.busy j
  have hkrdy : s.statusWord.getLsbD 3 = s.krdy := hbit 3
  exact ⟨hbit 0, hbit 1, hbit 2, by rw [hkrdy, krdy_iff], statusWord_extractLsb' s⟩

/-! ### CMD and STATUS after a command -/

/-- R96, R97, R218: a command leaves its opcode in CMD, and STATUS as one of the two ends leaves it. -/
theorem exec_cmd_status {i : Instr} {s t : State} (h : exec i s = .next t) :
    t.cmd = encode i ∧ ((∃ k, t.status = Status.fail k) ∨ t.status = Status.started.finish) := by
  rcases exec_cases h with ⟨k, -, rfl⟩ | ⟨-, -, out, cur, -, -, rfl⟩ | ⟨-, -, -, -, rfl⟩ | ⟨-, rfl⟩ | ⟨-, -, -, rfl⟩
  · exact ⟨rfl, .inl ⟨k, rfl⟩⟩
  all_goals exact ⟨rfl, .inr rfl⟩

/-- Settles O15: both ends of a command clear BUSY; the failing one sets ERR and a code that is not 0, the other DONE. -/
theorem everyCommandEndsDoneOrInError : Obligations.EveryCommandEndsDoneOrInError := by
  intro i s t h
  obtain ⟨hcmd, ⟨k, hst⟩ | hst⟩ := exec_cmd_status h
  · simp [hcmd, hst]
  · simp [hcmd, hst]

/-! ### The writers of the other registers -/

/-- R25: no command writes ILEN or IBUF. -/
theorem exec_ilen_ibuf {i : Instr} {s t : State} (h : exec i s = .next t) : t.ilen = s.ilen ∧ t.ibuf = s.ibuf := by
  rcases exec_cases h with ⟨k, -, rfl⟩ | ⟨-, -, out, cur, -, -, rfl⟩ | ⟨-, -, -, -, rfl⟩ | ⟨-, rfl⟩ | ⟨-, -, -, rfl⟩ <;>
    exact ⟨rfl, rfl⟩

theorem exec_sameOperand {i : Instr} {s t : State} (h : exec i s = .next t) : SameOperand s t :=
  have ⟨hilen, hibuf⟩ := exec_ilen_ibuf h
  ⟨hilen, byteAt_congr hibuf (exec_sameSurround h).resets⟩

/-- R26: a command that produces no buffer writes neither OLEN nor OBUF, at its failing end either. -/
theorem exec_sameResult {i : Instr} {s t : State} (h : exec i s = .next t) (hi : producesBuffer i = false) :
    SameResult s t := by
  rcases exec_cases h with ⟨k, -, rfl⟩ | ⟨hp, -⟩ | ⟨-, -, -, -, rfl⟩ | ⟨-, rfl⟩ | ⟨-, -, -, rfl⟩
  · exact ⟨by simp [hi], fun _ => rfl⟩
  · simp [hi] at hp
  all_goals exact ⟨rfl, fun _ => rfl⟩

/-- R29: only KSF_GET writes ELEM. -/
theorem exec_elem {i : Instr} {s t : State} (h : exec i s = .next t) (hi : i ≠ .ksfGet) : t.elem = s.elem := by
  rcases exec_cases h with ⟨k, -, rfl⟩ | ⟨-, -, out, cur, -, -, rfl⟩ | ⟨-, -, -, -, rfl⟩ | ⟨-, rfl⟩ | ⟨hget, -⟩
  case inr.inr.inr.inr => exact absurd hget hi
  all_goals rfl

/-- R28: no command outside the KSF and VIG units writes CUR. -/
theorem exec_cur {i : Instr} {s t : State} (h : exec i s = .next t)
    (hi : i = .cobsEnc ∨ i = .cobsDec ∨ i = .xorEnc ∨ i = .xorDec) : t.cur = s.cur := by
  have hother : ¬ (i = .vigEnc ∨ i = .vigDec) ∧ ¬ (i = .ksfSet ∨ i = .vigSetpw) ∧ ¬ (i = .ksfRst ∨ i = .vigRstidx) ∧
      i ≠ .ksfGet := by
    rcases hi with rfl | rfl | rfl | rfl <;> decide
  obtain ⟨hnvig, hnload, hnrst, hnget⟩ := hother
  rcases exec_cases h with ⟨k, -, rfl⟩ | ⟨-, -, out, cur, -, hcur, rfl⟩ | ⟨hload, -⟩ | ⟨hrst, -⟩ | ⟨hget, -⟩
  · rfl
  · rcases hcur with ⟨hcur, -⟩ | ⟨hvig, -⟩
    · exact hcur
    · exact absurd hvig hnvig
  · exact absurd hload hnload
  · exact absurd hrst hnrst
  · exact absurd hget hnget

/-- Settles O54: one frame lemma a register. -/
theorem eachRegisterHasItsWriters : Obligations.EachRegisterHasItsWriters :=
  fun _ _ _ h => ⟨exec_sameOperand h, exec_sameResult h, exec_elem h, exec_cur h, exec_sameSurround h⟩

/-! ### The writers of the key -/

/-- R31: a command that loads no key leaves KEY and KLEN as they are. -/
theorem exec_key_klen {i : Instr} {s t : State} (hset : i ≠ .ksfSet) (hpw : i ≠ .vigSetpw) (h : exec i s = .next t) :
    t.key = s.key ∧ t.klen = s.klen := by
  rcases exec_cases h with ⟨k, -, rfl⟩ | ⟨-, -, out, cur, -, -, rfl⟩ | ⟨hload, -⟩ | ⟨-, rfl⟩ | ⟨-, -, -, rfl⟩
  case inr.inr.inl => exact absurd hload (not_or.mpr ⟨hset, hpw⟩)
  all_goals exact ⟨rfl, rfl⟩

/-- R31: an access of the host that neither runs a command nor resets the block leaves the feeder as it is. -/
theorem hostAct_key_klen_cur {a : HostAction} {s t : State} (hreset : a ≠ .reset) (hcmd : ∀ v, a ≠ .write .reg 0 v)
    (h : hostAct a s = .next t) : t.key = s.key ∧ t.klen = s.klen ∧ t.cur = s.cur := by
  rcases hostAct_cases h with ⟨v, i, ha, -⟩ | ⟨v, why, ha, -⟩ | ⟨v, -, -, -, rfl⟩ | ⟨j, v, -, -, -, -, rfl⟩ |
    ⟨space, j, v, -, -, -, rfl⟩ | ⟨ha, -⟩
  · exact absurd ha (hcmd v)
  · exact absurd ha (hcmd v)
  · exact ⟨rfl, rfl, rfl⟩
  · exact ⟨rfl, rfl, rfl⟩
  · exact ⟨rfl, rfl, rfl⟩
  · exact absurd ha hreset

/-- Settles O41: the commands by what each can do, a step by the access it takes. -/
theorem onlyKeyLoadsWriteTheKey : Obligations.OnlyKeyLoadsWriteTheKey := by
  refine ⟨fun i s t => exec_key_klen, fun s t a rest hin hreset hcmd h => ?_⟩
  rw [step_cons hin] at h
  exact hostAct_key_klen_cur (s := { s with inputs := rest }) hreset hcmd h

end Sys2Proof.Machine
end

section
/-! What a command does not read: the bytes of IBUF beyond its operand (rules R25, R80) and the bytes of KEY beyond KLEN
(R34). Both replace a memory of the state, and a command's rule commutes with that wherever it reads the same bytes. -/

namespace Sys2Proof.Machine

/-! ### Replacing IBUF and KEY -/

/-- The state with IBUF and KEY replaced by a function of each. -/
def State.mapMems (fi fk : Mem → Mem) (s : State) : State := { s with ibuf := fi s.ibuf, key := fk s.key }

/-- The bytes that `next_key` gives from `s` on, however often it is called, are the same with the memories replaced. -/
def SameKeystream (fi fk : Mem → Mem) (s : State) : Prop :=
  ∀ n, ((State.advanceCursor^[n] s).mapMems fi fk).byteAt .key (State.advanceCursor^[n] s).cur.toNat =
    (State.advanceCursor^[n] s).byteAt .key (State.advanceCursor^[n] s).cur.toNat

variable {fi fk : Mem → Mem} {s t : State}

@[simp] theorem mapMems_klen (fi fk : Mem → Mem) (s : State) : (s.mapMems fi fk).klen = s.klen := rfl
@[simp] theorem mapMems_cur (fi fk : Mem → Mem) (s : State) : (s.mapMems fi fk).cur = s.cur := rfl
@[simp] theorem mapMems_cfg (fi fk : Mem → Mem) (s : State) : (s.mapMems fi fk).cfg = s.cfg := rfl

/-! ### The bytes a command reads -/

theorem SameKeystream.advanceCursor (h : SameKeystream fi fk s) : SameKeystream fi fk s.advanceCursor :=
  fun n => h (n + 1)

theorem advanceCursor_iterate (h : BlockInv s) (hk : s.klen ≠ 0) (n : Nat) :
    ∃ c : Word, State.advanceCursor^[n] s = s.withCursor c ∧ c.toNat < s.klen.toNat := by
  induction n generalizing s with
  | zero => exact ⟨s.cur, rfl, h.ready hk⟩
  | succ n ih => exact ih (h.advanceCursor hk) hk

/-- R28, R34: the cursor of a ready feeder stays below KLEN, so the keystream depends on the bytes of KEY below it alone. -/
theorem BlockInv.sameKeystream (h : BlockInv s) (hk : s.klen ≠ 0)
    (hkey : ∀ j, j < s.klen.toNat → (s.mapMems fi fk).byteAt .key j = s.byteAt .key j) : SameKeystream fi fk s := by
  intro n
  obtain ⟨c, hn, hc⟩ := advanceCursor_iterate h hk n
  rw [hn]
  exact hkey _ hc

/-! ### The shared operations commute with the replacement -/

theorem deliver_mapMems (i : Instr) (r : Except ErrorKind (List Byte)) (s : State) :
    deliver i r (s.mapMems fi fk) = (deliver i r s).map (State.mapMems fi fk) := by
  cases r with
  | error k => rfl
  | ok out =>
    by_cases hout : out.length ≤ outMax s.cfg
    · rw [deliver_ok.mpr (.inr ⟨out, rfl, hout, rfl⟩)]
      exact deliver_ok.mpr (.inr ⟨out, rfl, hout, rfl⟩)
    · simp [deliver, storeResult, hout, Except.map]

theorem nextKey_mapMems (h : SameKeystream fi fk s) :
    nextKey (s.mapMems fi fk) = (nextKey s).map (Prod.map id (State.mapMems fi fk)) := by
  have hbyte : (s.mapMems fi fk).byteAt .key s.cur.toNat = s.byteAt .key s.cur.toNat := h 0
  by_cases hc : s.cur.toNat < s.cfg.keyMax
  · rw [nextKey_ok.mpr ⟨hc, rfl, rfl⟩]
    exact nextKey_ok.mpr ⟨hc, hbyte.symm, rfl⟩
  · simp [nextKey, hc, Except.map]

theorem getElement_mapMems (i : Instr) (h : s.klen ≠ 0 → SameKeystream fi fk s) :
    getElement i (s.mapMems fi fk) = (getElement i s).map (State.mapMems fi fk) := by
  by_cases hk : s.klen = 0
  · rw [getElement_ok.mpr (.inl ⟨hk, rfl⟩)]
    exact getElement_ok.mpr (.inl ⟨hk, rfl⟩)
  · rw [getElement, mapMems_klen, if_neg hk, getElement, if_neg hk, nextKey_mapMems (h hk)]
    cases nextKey s <;> rfl

theorem scramble_mapMems (f : Byte → Byte → Byte) (bs : List Byte) (h : SameKeystream fi fk s) :
    scramble f bs (s.mapMems fi fk) = (scramble f bs s).map (Prod.map id (State.mapMems fi fk)) := by
  induction bs generalizing s with
  | nil => rfl
  | cons b bs ih =>
    rw [scramble, scramble, nextKey_mapMems h]
    cases hn : nextKey s with
    | error e => rfl
    | ok kt =>
      obtain ⟨-, -, ht⟩ := nextKey_ok.mp hn
      simp only [Except.map, Prod.map, ht, ih h.advanceCursor]
      cases scramble f bs s.advanceCursor <;> rfl

theorem vigenere_mapMems (i : Instr) (f : Byte → Byte → Byte) (hop : (s.mapMems fi fk).operand = s.operand)
    (h : s.klen ≠ 0 → SameKeystream fi fk s) :
    vigenere i f (s.mapMems fi fk) = (vigenere i f s).map (State.mapMems fi fk) := by
  by_cases hk : s.klen = 0
  · rw [vigenere, mapMems_klen, if_pos hk, vigenere, if_pos hk]
    rfl
  · rw [vigenere, mapMems_klen, if_neg hk, vigenere, if_neg hk, hop, scramble_mapMems f _ (h hk)]
    cases scramble f s.operand s with
    | error e => rfl
    | ok out => exact deliver_mapMems ..

/-- R162: the rule of a key load commutes with a replacement of IBUF that leaves the operand. -/
theorem setContent_mapMems (i : Instr) (hop : (s.mapMems fi id).operand = s.operand) :
    setContent i (s.mapMems fi id) = (setContent i s).map (State.mapMems fi id) := by
  obtain ⟨t, ht⟩ := setContent_completes i s
  rw [ht]
  refine setContent_ok.mpr ?_
  rcases setContent_ok.mp ht with ⟨h0, rfl⟩ | ⟨h0, hk, rfl⟩ | ⟨h0, hk, rfl⟩
  · exact .inl ⟨h0, rfl⟩
  · exact .inr (.inl ⟨h0, hk, rfl⟩)
  · exact .inr (.inr ⟨h0, hk, by rw [hop]; rfl⟩)

/-! ### The commands that load no key commute with it -/

theorem runCommand_mapMems {i : Instr} {body : State → Except Fault State}
    (hbody : (readsIbuf i = true → s.ilen.toNat ≤ s.cfg.inMax) →
      body ((s.start (encode i)).mapMems fi fk) = (body (s.start (encode i))).map (State.mapMems fi fk))
    (h : runCommand i body s = .next t) : runCommand i body (s.mapMems fi fk) = .next (t.mapMems fi fk) := by
  rcases runCommand_next.mp h with ⟨hr, hlen, rfl⟩ | ⟨hfits, hok⟩
  · exact runCommand_oversize hr hlen
  · have hfits : readsIbuf i = true → s.ilen.toNat ≤ s.cfg.inMax := fun hr => not_lt.mp fun hlt => hfits ⟨hr, hlt⟩
    exact runCommand_fits hfits ((hbody hfits).trans (by rw [hok]; rfl))

/-- A command that delivers a function of its operand reads no other byte of IBUF and none of KEY. -/
theorem deliver_command_mapMems {i : Instr} (f : List Byte → Except ErrorKind (List Byte)) (hr : readsIbuf i = true)
    (hop : s.ilen.toNat ≤ s.cfg.inMax → (s.mapMems fi fk).operand = s.operand)
    (h : runCommand i (fun u => deliver i (f u.operand) u) s = .next t) :
    runCommand i (fun u => deliver i (f u.operand) u) (s.mapMems fi fk) = .next (t.mapMems fi fk) :=
  runCommand_mapMems (fun hfits => by
    have hop : ((s.start (encode i)).mapMems fi fk).operand = (s.start (encode i)).operand := hop (hfits hr)
    exact (congrArg (fun x => deliver i (f x) _) hop).trans (deliver_mapMems ..)) h

/-- R25, R34: a command that loads no key commutes with a replacement of IBUF and KEY that leaves the operand and, on a
ready feeder, the keystream. -/
theorem exec_mapMems {i : Instr} (hset : i ≠ .ksfSet) (hpw : i ≠ .vigSetpw)
    (hop : readsIbuf i = true → s.ilen.toNat ≤ s.cfg.inMax → (s.mapMems fi fk).operand = s.operand)
    (hkey : s.klen ≠ 0 → SameKeystream fi fk (s.start (encode i))) (h : exec i s = .next t) :
    exec i (s.mapMems fi fk) = .next (t.mapMems fi fk) := by
  cases i with
  | cobsEnc => exact deliver_command_mapMems (fun x => .ok (cobsEncode x)) rfl (hop rfl) h
  | cobsDec => exact deliver_command_mapMems cobsDecode rfl (hop rfl) h
  | ksfSet => exact absurd rfl hset
  | vigSetpw => exact absurd rfl hpw
  | ksfRst => rw [exec_ksfRst] at h ⊢; exact runCommand_mapMems (fun _ => rfl) h
  | vigRstidx => rw [exec_vigRstidx] at h ⊢; exact runCommand_mapMems (fun _ => rfl) h
  | ksfGet => exact runCommand_mapMems (fun _ => getElement_mapMems _ hkey) h
  | vigEnc | vigDec => exact runCommand_mapMems (fun hfits => vigenere_mapMems _ _ (hop rfl (hfits rfl)) hkey) h
  | xorEnc | xorDec => exact deliver_command_mapMems (fun x => .ok (xorMask x)) rfl (hop rfl) h

/-! ### The key loads -/

/-- R162, R180: the two key loads are one rule. -/
theorem exec_keyLoad {i : Instr} (hload : i = .ksfSet ∨ i = .vigSetpw) (s : State) :
    exec i s = runCommand i (setContent i) s := by
  rcases hload with rfl | rfl
  · exact exec_ksfSet s
  · exact exec_vigSetpw s

theorem readsIbuf_keyLoad {i : Instr} (hload : i = .ksfSet ∨ i = .vigSetpw) : readsIbuf i = true := by
  rcases hload with rfl | rfl <;> rfl

/-- R162, R180: a key load commutes with a replacement of IBUF that leaves the operand. -/
theorem keyLoad_mapMems {i : Instr} (hload : i = .ksfSet ∨ i = .vigSetpw)
    (hop : readsIbuf i = true → s.ilen.toNat ≤ s.cfg.inMax → (s.mapMems fi id).operand = s.operand)
    (h : exec i s = .next t) : exec i (s.mapMems fi id) = .next (t.mapMems fi id) := by
  have hr := readsIbuf_keyLoad hload
  rw [exec_keyLoad hload] at h ⊢
  exact runCommand_mapMems (fun hfits => setContent_mapMems i (hop hr (hfits hr))) h

/-- R162, R180: a key load reads no byte of KEY: with any other memory KEY it does the same to everything else. -/
theorem keyLoad_any_key {i : Instr} (hload : i = .ksfSet ∨ i = .vigSetpw) (m : Mem) (h : exec i s = .next t) :
    ∃ m', exec i { s with key := m } = .next { t with key := m' } := by
  simp only [exec_keyLoad hload] at h ⊢
  rcases runCommand_next.mp h with ⟨hr, hlen, rfl⟩ | ⟨hfits, hok⟩
  · exact ⟨m, runCommand_oversize hr hlen⟩
  · rcases setContent_ok.mp hok with ⟨h0, rfl⟩ | ⟨h0, hk, rfl⟩ | ⟨h0, hk, rfl⟩
    · exact ⟨m, runCommand_next.mpr (.inr ⟨hfits, setContent_ok.mpr (.inl ⟨h0, rfl⟩)⟩)⟩
    · exact ⟨m, runCommand_next.mpr (.inr ⟨hfits, setContent_ok.mpr (.inr (.inl ⟨h0, hk, rfl⟩))⟩)⟩
    · exact ⟨m.store 0 s.operand,
        runCommand_next.mpr (.inr ⟨hfits, setContent_ok.mpr (.inr (.inr ⟨h0, hk, rfl⟩))⟩)⟩

/-! ### IBUF beyond the operand -/

/-- Settles O58: the operand is all that a command reads of IBUF, and KEY is as it was. -/
theorem ibufBeyondTheOperandIsImmaterial : Obligations.IbufBeyondTheOperandIsImmaterial := by
  intro i s t m hbytes h
  have hop : readsIbuf i = true → s.ilen.toNat ≤ s.cfg.inMax →
      (s.mapMems (fun _ => m) id).operand = s.operand := fun hr hlen => bytesOf_congr (hbytes hr hlen)
  by_cases hload : i = .ksfSet ∨ i = .vigSetpw
  · exact keyLoad_mapMems (fi := fun _ => m) hload hop h
  · obtain ⟨hset, hpw⟩ := not_or.mp hload
    exact exec_mapMems (fi := fun _ => m) (fk := id) hset hpw hop (fun _ _ => rfl) h

/-! ### KEY beyond KLEN -/

/-- Settles O55: a key load reads nothing of KEY, and any other command its bytes at the cursor, which stays below KLEN. -/
theorem keyBeyondItsLengthIsImmaterial : Obligations.KeyBeyondItsLengthIsImmaterial := by
  intro i s t m hinv hbytes h
  by_cases hload : i = .ksfSet ∨ i = .vigSetpw
  · obtain ⟨m', h'⟩ := keyLoad_any_key hload m h
    exact ⟨_, h', rfl⟩
  · obtain ⟨hset, hpw⟩ := not_or.mp hload
    have hkey : s.klen ≠ 0 → SameKeystream id (fun _ => m) (s.start (encode i)) :=
      fun hk => (hinv.start (encode i)).sameKeystream hk hbytes
    exact ⟨_, exec_mapMems (fi := id) (fk := fun _ => m) hset hpw (fun _ _ => rfl) hkey h, rfl⟩

end Sys2Proof.Machine
end

section
/-! Commands run again right after themselves (rule R70): each update of the state, made again after itself, changes nothing,
so a command that reads nothing it has written is idempotent. -/

namespace Sys2Proof.Machine

/-! ### An update made again after itself -/

theorem raise_again (i : Instr) (k : ErrorKind) (v : Byte) (s : State) :
    (((s.start v).raise i k).start v).raise i k = (s.start v).raise i k := by
  cases h : producesBuffer i <;> simp [State.raise, State.start, h]

/-- R33: the same result stored again. -/
theorem withResult_again (out : List Byte) (v : Byte) (s : State) :
    ((((s.start v).withResult out).done.start v).withResult out).done = ((s.start v).withResult out).done := by
  simp [State.withResult, State.done, State.start, store_store]

/-- R34, R162: the same key stored again. -/
theorem withKey_again (k : List Byte) (v : Byte) (s : State) :
    ((((s.start v).withKey k).done.start v).withKey k).done = ((s.start v).withKey k).done := by
  simp [State.withKey, State.done, State.start, store_store]

/-! ### A rule run again on the state it left -/

theorem deliver_again {i : Instr} {r : Except ErrorKind (List Byte)} {v : Byte} {s t : State}
    (h : deliver i r (s.start v) = .ok t) : deliver i r (t.start v) = .ok t := by
  rcases deliver_ok.mp h with ⟨k, hk, rfl⟩ | ⟨out, hout, hfits, rfl⟩
  · exact deliver_ok.mpr (.inl ⟨k, hk, (raise_again i k v s).symm⟩)
  · exact deliver_ok.mpr (.inr ⟨out, hout, hfits, (withResult_again out v s).symm⟩)

theorem setContent_again {i : Instr} {v : Byte} {s t : State} (h : setContent i (s.start v) = .ok t) :
    setContent i (t.start v) = .ok t := by
  refine setContent_ok.mpr ?_
  rcases setContent_ok.mp h with ⟨h0, rfl⟩ | ⟨h0, hk, rfl⟩ | ⟨h0, hk, rfl⟩
  · exact .inl ⟨h0, (raise_again ..).symm⟩
  · exact .inr (.inl ⟨h0, hk, (raise_again ..).symm⟩)
  · exact .inr (.inr ⟨h0, hk, (withKey_again s.operand v s).symm⟩)

/-! ### A command run again -/

/-- R25: no command changes its operand. -/
theorem exec_operand {i : Instr} {s t : State} (h : exec i s = .next t) : t.operand = s.operand := by
  obtain ⟨hilen, hbyte⟩ := exec_sameOperand h
  rw [State.operand, hilen]
  exact bytesOf_congr fun j _ => hbyte j

/-- R96: a command is idempotent when its own rule, run again on the state it left, leaves that state: the length check
finds the same operand. -/
theorem exec_again {i : Instr} {body : State → Except Fault State} {s t : State} (hrun : exec i = runCommand i body)
    (hbody : body (s.start (encode i)) = .ok t → body (t.start (encode i)) = .ok t) (h : exec i s = .next t) :
    exec i t = .next t := by
  have hilen := (exec_sameOperand h).ilen
  have hcfg := (exec_sameSurround h).cfg
  rw [hrun] at h ⊢
  rcases runCommand_next.mp h with ⟨hr, hlen, rfl⟩ | ⟨hfits, hok⟩
  · exact runCommand_next.mpr (.inl ⟨hr, hlen, (raise_again ..).symm⟩)
  · exact runCommand_next.mpr (.inr ⟨by rwa [hilen, hcfg], hbody hok⟩)

/-- A command that delivers a function of its operand is idempotent. -/
theorem deliver_command_again {i : Instr} {f : List Byte → Except ErrorKind (List Byte)} {s t : State}
    (hrun : exec i = runCommand i (fun u => deliver i (f u.operand) u)) (h : exec i s = .next t) : exec i t = .next t := by
  refine exec_again hrun (fun hok => ?_) h
  rw [start_operand] at hok
  rw [start_operand, exec_operand h]
  exact deliver_again hok

/-- A cursor reset is idempotent. -/
theorem cursorReset_again {i : Instr} {s t : State} (hrun : exec i = runCommand i (fun u => .ok u.resetCursor.done))
    (h : exec i s = .next t) : exec i t = .next t :=
  exec_again hrun (fun hok => by cases hok; rfl) h

/-- Settles O20: the commands that deliver a function of the operand, the key loads and the cursor resets. -/
theorem otherCommandsAreIdempotent : Obligations.OtherCommandsAreIdempotent := by
  intro i s t hget henc hdec h
  cases i with
  | cobsEnc => exact deliver_command_again (f := fun x => .ok (cobsEncode x)) (funext exec_cobsEnc) h
  | cobsDec => exact deliver_command_again (funext exec_cobsDec) h
  | ksfSet | vigSetpw => exact exec_again (funext (exec_keyLoad (by simp))) setContent_again h
  | ksfRst => exact cursorReset_again (funext exec_ksfRst) h
  | vigRstidx => exact cursorReset_again (funext exec_vigRstidx) h
  | xorEnc => exact deliver_command_again (f := fun x => .ok (xorMask x)) (funext exec_xorEnc) h
  | xorDec => exact deliver_command_again (f := fun x => .ok (xorMask x)) (funext exec_xorDec) h
  | ksfGet => exact absurd rfl hget
  | vigEnc => exact absurd rfl henc
  | vigDec => exact absurd rfl hdec

end Sys2Proof.Machine
end

section
/-! The host's port (rules R62 to R66, R73, R246): what each access does, target by target, one lemma a case. -/

namespace Sys2Proof.Machine

variable {s : State} {space : Space} {addr v : Nat}

/-! ### The accesses that R64 allows -/

theorem read_allowed_iff {p : Params} :
    (HostAction.read space addr).allowed p = true ↔
      space = .reg ∧ addr < 7 ∨ space = .bytes .ibuf ∧ addr < p.inMax ∨ space = .bytes .obuf ∧ addr < outMax p := by
  rcases space with _ | (_ | _ | _) <;> simp [HostAction.allowed]

theorem write_allowed_iff {p : Params} :
    (HostAction.write space addr v).allowed p = true ↔
      space = .reg ∧ addr = 0 ∧ v < 256 ∨ space = .reg ∧ addr = 2 ∧ v < 65536 ∨
        space = .bytes .ibuf ∧ addr < p.inMax ∧ v < 256 := by
  rcases space with _ | (_ | _ | _) <;> simp [HostAction.allowed]

/-! ### BUSY 1 -/

/-- R246: while BUSY is 1 no write takes effect. -/
theorem hostWrite_busy (hb : s.status.busy = true) : hostWrite space addr v s = .refused .busyExclusion := by
  simp [hostWrite, hb]

/-- R246: while BUSY is 1 no location but STATUS is read. -/
theorem hostRead_busy (hb : s.status.busy = true) (hloc : ¬ (space = .reg ∧ addr = 1)) :
    hostRead space addr s = .refused .busyExclusion := by
  rw [hostRead, if_pos ⟨hb, hloc⟩]

/-! ### Reads -/

/-- R63: a read of a location that has a value. -/
theorem hostRead_of_hostValue {w : Word} (hb : s.status.busy = true → space = .reg ∧ addr = 1)
    (hv : hostValue s space addr = some w) : hostRead space addr s = .next { s with returned := some w } := by
  rw [hostRead, if_neg fun h => h.2 (hb h.1), hv]

/-- R63, R64: the locations that have a value for the host are those it may read. -/
theorem hostValue_isSome (s : State) (space : Space) (addr : Nat) :
    (hostValue s space addr).isSome = (HostAction.read space addr).allowed s.cfg := by
  rcases space with _ | (_ | _ | _)
  case reg =>
    match addr with
    | 0 | 1 | 2 | 3 | 4 | 5 | 6 => rfl
    | n + 7 => simp [hostValue, registerValue, HostAction.allowed]
  case bytes.key => rfl
  all_goals simp only [hostValue, HostAction.allowed]; split <;> simp [*]

/-- R65: a read of a location that the host may not read. -/
theorem hostRead_not_allowed (hb : s.status.busy = false) (h : (HostAction.read space addr).allowed s.cfg = false) :
    hostRead space addr s = .refused .noSuchLocation := by
  have hnone : hostValue s space addr = none := by
    rwa [← hostValue_isSome, Option.isSome_eq_false_iff, Option.isNone_iff_eq_none] at h
  rw [hostRead, hb, if_neg (by simp), hnone]

/-! ### Writes -/

/-- R62: a write of CMD. -/
theorem hostWrite_cmd (hb : s.status.busy = false) (hv : v < 256) :
    hostWrite .reg 0 v s = writeCmd (BitVec.ofNat 8 v) s := by
  simp [hostWrite, hb, hv]

/-- R62: a write of ILEN. -/
theorem hostWrite_ilen (hb : s.status.busy = false) (hv : v < 65536) :
    hostWrite .reg 2 v s = .next { s with ilen := BitVec.ofNat 16 v } := by
  simp [hostWrite, hb, hv]

/-- R12: the byte stored is the byte read. -/
theorem byteAt_of_store_same {s t : State} {b : Buffer} {j : Nat} {x : Byte} (hm : t.mem b = (s.mem b).store j [x])
    (hr : t.resets = s.resets) : t.byteAt b j = x := by
  simp [byteAt_of_store hm hr]

/-- R12: a store of one byte leaves every other byte as it was. -/
theorem byteAt_of_store_ne {s t : State} {b : Buffer} {j k : Nat} {x : Byte} (hm : t.mem b = (s.mem b).store j [x])
    (hr : t.resets = s.resets) (hk : k ≠ j) : t.byteAt b k = s.byteAt b k := by
  rw [byteAt_of_store hm hr, dif_neg (by simp; omega)]

/-- R62: a write of a byte of IBUF. -/
theorem hostWrite_ibuf (hb : s.status.busy = false) (haddr : addr < s.cfg.inMax) (hv : v < 256) :
    hostWrite (.bytes .ibuf) addr v s = .next { s with ibuf := s.ibuf.store addr [BitVec.ofNat 8 v] } := by
  simp [hostWrite, hb, haddr, hv]

/-- R65: a write to a location that is not there: outside the registers, IBUF and OBUF. -/
theorem hostWrite_absent (hb : s.status.busy = false) (h : (HostAction.read space addr).allowed s.cfg = false) :
    hostWrite space addr v s = .refused .noSuchLocation := by
  rcases space with _ | (_ | _ | _)
  case reg =>
    have haddr : 7 ≤ addr := by simpa [HostAction.allowed] using h
    have h0 : addr ≠ 0 := by omega
    have h2 : addr ≠ 2 := by omega
    simp [hostWrite, hb, haddr, h0, h2]
  all_goals
    simp only [HostAction.allowed, decide_eq_false_iff_not] at h
    simp [hostWrite, hb, h]

/-- R66: a write to a location of R64 that the host may only read. -/
theorem hostWrite_readOnly (hb : s.status.busy = false)
    (h : space = .reg ∧ addr < 7 ∧ ¬ (addr = 0 ∨ addr = 2) ∨ space = .bytes .obuf ∧ addr < outMax s.cfg) :
    hostWrite space addr v s = .refused .notWritable := by
  rcases h with ⟨rfl, hlt, hne⟩ | ⟨rfl, hlt⟩
  · obtain ⟨h0, h2⟩ := not_or.mp hne
    simp [hostWrite, hb, h0, h2, hlt]
  · simp [hostWrite, hb, hlt]

/-- Log entry 8: a write of a value wider than its location. -/
theorem hostWrite_tooWide (hb : s.status.busy = false)
    (h : space = .reg ∧ addr = 0 ∧ 256 ≤ v ∨ space = .reg ∧ addr = 2 ∧ 65536 ≤ v ∨
      space = .bytes .ibuf ∧ addr < s.cfg.inMax ∧ 256 ≤ v) :
    hostWrite space addr v s = .refused .valueTooWide := by
  rcases h with ⟨rfl, rfl, hv⟩ | ⟨rfl, rfl, hv⟩ | ⟨rfl, haddr, hv⟩
  · simp [hostWrite, hb, hv]
  · simp [hostWrite, hb, hv]
  · simp [hostWrite, hb, haddr, hv]

/-- R62: any other write is refused: the location is absent or read-only, or the value too wide for it. -/
theorem hostWrite_not_allowed (hb : s.status.busy = false) (h : (HostAction.write space addr v).allowed s.cfg = false) :
    ∃ r, hostWrite space addr v s = .refused r := by
  rw [← Bool.not_eq_true, write_allowed_iff] at h
  cases hloc : (HostAction.read space addr).allowed s.cfg with
  | false => exact ⟨_, hostWrite_absent hb hloc⟩
  | true =>
    rcases read_allowed_iff.mp hloc with ⟨rfl, hlt⟩ | ⟨rfl, hlt⟩ | ⟨rfl, hlt⟩
    · by_cases hrw : addr = 0 ∨ addr = 2
      · exact ⟨_, hostWrite_tooWide hb (by rcases hrw with rfl | rfl <;> simpa using h)⟩
      · exact ⟨_, hostWrite_readOnly hb (.inl ⟨rfl, hlt, hrw⟩)⟩
    · exact ⟨_, hostWrite_tooWide hb (.inr (.inr ⟨rfl, hlt, by simpa [hlt] using h⟩))⟩
    · exact ⟨_, hostWrite_readOnly hb (.inr ⟨rfl, hlt⟩)⟩

/-! ### The word written to CMD -/

theorem writeCmd_of_decode {w : Byte} {i : Instr} (h : decode s.cfg w = .ok i) : writeCmd w s = exec i s := by
  rw [writeCmd, h]

/-- R98: from a state that meets the invariant every word written to CMD ends its command. -/
theorem BlockInv.writeCmd_completes (h : BlockInv s) (w : Byte) : ∃ t, writeCmd w s = .next t := by
  cases hd : decode s.cfg w with
  | ok i =>
    rw [writeCmd_of_decode hd]
    exact commandsCompleteWithoutAddressFault i s h
  | error why => exact ⟨_, by rw [writeCmd, hd]⟩

/-! ### One access of the host, with BUSY 0 -/

/-- R64: what the host may do takes effect. -/
theorem BlockInv.hostAct_allowed (h : BlockInv s) (hb : s.status.busy = false) {a : HostAction}
    (ha : a.allowed s.cfg = true) : ∃ t, hostAct a s = .next t := by
  cases a with
  | write space addr v =>
    rcases write_allowed_iff.mp ha with ⟨rfl, rfl, hv⟩ | ⟨rfl, rfl, hv⟩ | ⟨rfl, haddr, hv⟩
    · rw [hostAct, hostWrite_cmd hb hv]
      exact h.writeCmd_completes _
    · exact ⟨_, hostWrite_ilen hb hv⟩
    · exact ⟨_, hostWrite_ibuf hb haddr hv⟩
  | read space addr =>
    obtain ⟨w, hw⟩ := Option.isSome_iff_exists.mp ((hostValue_isSome s space addr).trans ha)
    exact ⟨_, hostRead_of_hostValue (by simp [hb]) hw⟩
  | reset => exact ⟨_, rfl⟩

/-- R64: what the host may not do is refused. -/
theorem hostAct_not_allowed (hb : s.status.busy = false) {a : HostAction} (ha : a.allowed s.cfg = false) :
    ∃ r, hostAct a s = .refused r := by
  cases a with
  | write space addr v => exact hostWrite_not_allowed hb ha
  | read space addr => exact ⟨_, hostRead_not_allowed hb ha⟩
  | reset => cases ha

/-- Log entry 5: no access leaves BUSY 1 where it was 0. -/
theorem hostAct_not_busy {a : HostAction} {t : State} (hb : s.status.busy = false) (h : hostAct a s = .next t) :
    t.status.busy = false := by
  rcases hostAct_cases h with ⟨v, i, -, -, -, -, hexec⟩ | ⟨v, why, -, -, -, -, rfl⟩ | ⟨v, -, -, -, rfl⟩ |
    ⟨j, v, -, -, -, -, rfl⟩ | ⟨space, j, v, -, -, -, rfl⟩ | ⟨-, rfl⟩
  · obtain ⟨-, hbusy, -⟩ := everyCommandEndsDoneOrInError i s t hexec
    exact hbusy
  · rfl
  · exact hb
  · exact hb
  · exact hb
  · rfl

end Sys2Proof.Machine
end

section
/-! A step that takes an access of the host, or none: what it does (R62 to R66, R73, R246), and that it refuses exactly the
accesses R64 does not allow. Each statement is the lemma about the port, for the state without the access taken. -/

namespace Sys2Proof.Machine

/-- Settles O51: an allowed access takes effect, any other is refused, and neither is a fault. -/
theorem stepRefusesExactlyWhatIsNotAllowed : Obligations.StepRefusesExactlyWhatIsNotAllowed := by
  intro s hinv hb
  cases hin : s.inputs with
  | nil => simp [step_nil hin]
  | cons a rest =>
    rw [step_cons hin]
    cases ha : a.allowed s.cfg with
    | true =>
      obtain ⟨t, ht⟩ := (hinv.withInputs rest).hostAct_allowed hb ha
      simp [ht, ha]
    | false =>
      obtain ⟨r, hr⟩ := hostAct_not_allowed (s := { s with inputs := rest }) hb ha
      simp [hr, ha]

/-- Settles O52: an idle step keeps BUSY, and so does every access of the host. -/
theorem stepNeverShowsBusy : Obligations.StepNeverShowsBusy := by
  intro s t hb h
  cases hin : s.inputs with
  | nil =>
    rw [step_nil hin] at h
    cases h
    exact hb
  | cons a rest =>
    rw [step_cons hin] at h
    exact hostAct_not_busy (s := { s with inputs := rest }) hb h

/-- R90: a word of eight bits stands in the opcode table as it is. -/
theorem tableWord_eight {w : Nat} (h : w < 256) : (tableWord 8 w).toNat = w := by
  simp [tableWord, Nat.mod_eq_of_lt h]

/-- R62, R96: a step that takes a write of CMD runs the command of its word. -/
theorem step_cmdWrite {s : State} {v : Nat} {rest : List HostAction} {i : Instr} (hin : s.inputs = .write .reg 0 v :: rest)
    (hv : v < 256) (hb : s.status.busy = false) (hd : decode s.cfg (BitVec.ofNat 8 v) = .ok i) :
    step s = exec i { s with inputs := rest } := by
  rw [step_cons hin]
  exact (hostWrite_cmd (s := { s with inputs := rest }) hb hv).trans (writeCmd_of_decode hd)

/-- R77: `withFetchWord` puts the write of its word first. -/
theorem withFetchWord_inputs (s : State) {w : Nat} (h : w < 256) :
    (s.withFetchWord 8 w).inputs = .write .reg 0 w :: s.inputs := by
  rw [State.withFetchWord, tableWord_eight h]

/-- Settles O4: the write of CMD is the next action, and `withFetchWord` puts it there. -/
theorem cmdWriteRunsTheDecodedCommand : Obligations.CmdWriteRunsTheDecodedCommand :=
  ⟨fun _ _ _ _ => step_cmdWrite, fun s _ _ hb hw => step_cmdWrite (withFetchWord_inputs s hw) hw hb⟩

/-- Settles O6: the port tests BUSY first, but for a read of STATUS and for reset. -/
theorem busyExcludesTheHost : Obligations.BusyExcludesTheHost := by
  intro s a rest hin hb
  rw [step_cons hin]
  refine ⟨?_, ?_, ?_, ?_⟩
  · rintro space addr v rfl
    exact hostWrite_busy hb
  · rintro space addr rfl hloc
    exact hostRead_busy hb hloc
  · rintro rfl
    exact hostRead_of_hostValue (fun _ => ⟨rfl, rfl⟩) rfl
  · rintro rfl
    exact ⟨_, rfl, rfl⟩

/-- Settles O7: the lemmas about a write to each location, and that any other write is one R64 does not allow. -/
theorem hostWriteActsByTarget : Obligations.HostWriteActsByTarget := by
  intro s space addr v rest hin hb
  rw [step_cons hin]
  refine ⟨?_, ?_, ?_, ?_⟩
  · rintro rfl rfl hv
    exact hostWrite_cmd hb hv
  · rintro rfl rfl hv
    exact hostWrite_ilen hb hv
  · rintro rfl haddr hv
    exact ⟨_, hostWrite_ibuf hb haddr hv, byteAt_of_store_same (s := s) rfl rfl,
      fun j hj => byteAt_of_store_ne (s := s) rfl rfl hj, rfl⟩
  · intro hcmd hilen hibuf
    refine hostWrite_not_allowed hb ?_
    rw [← Bool.not_eq_true, write_allowed_iff]
    exact not_or.mpr ⟨hcmd, not_or.mpr ⟨hilen, hibuf⟩⟩

/-- Settles O8: each location of R64 has its value, and any other has none. -/
theorem hostReadReturnsTheLocation : Obligations.HostReadReturnsTheLocation := by
  intro s space addr rest hin hb
  rw [step_cons hin]
  have hread {w : Word} (hv : hostValue { s with inputs := rest } space addr = some w) :
      hostAct (.read space addr) { s with inputs := rest } = .next { s with inputs := rest, returned := some w } :=
    hostRead_of_hostValue (by simp [hb]) hv
  refine ⟨?_, ?_, ?_, ?_⟩
  · intro row hrow hspace haddr
    subst hspace haddr
    refine hread ?_
    fin_cases hrow <;> rfl
  · rintro rfl haddr
    exact hread (if_pos haddr)
  · rintro rfl haddr
    exact hread (if_pos haddr)
  · intro hreg hibuf hobuf
    refine hostRead_not_allowed hb ?_
    rw [← Bool.not_eq_true, read_allowed_iff]
    exact not_or.mpr ⟨hreg, not_or.mpr ⟨hibuf, hobuf⟩⟩

/-- Settles O9: the locations named are those that the host may not read. -/
theorem absentLocationsAreRefused : Obligations.AbsentLocationsAreRefused := by
  intro s space addr v rest hb hloc
  have habsent : (HostAction.read space addr).allowed s.cfg = false := by
    rcases hloc with ⟨rfl, h⟩ | ⟨rfl, h⟩ | ⟨rfl, h⟩ | rfl
    case inr.inr.inr => rfl
    all_goals exact decide_eq_false h.not_gt
  refine ⟨fun hin => ?_, fun hin => ?_⟩
  · rw [step_cons hin]
    exact hostWrite_absent hb habsent
  · rw [step_cons hin]
    exact hostRead_not_allowed hb habsent

/-- Settles O10: the registers named are those that the host may read, without CMD and ILEN. -/
theorem readOnlyLocationsRefuseWrites : Obligations.ReadOnlyLocationsRefuseWrites := by
  intro s space addr v rest hb hloc hin
  rw [step_cons hin]
  refine hostWrite_readOnly hb ?_
  rcases hloc with ⟨rfl, hreg⟩ | hobuf
  · exact .inl ⟨rfl, by omega, by omega⟩
  · exact .inr hobuf

end Sys2Proof.Machine
end

section
/-! The command word (rules R90, R93 to R95, R98): the opcode map and `encode` are inverse, what `decode` answers in terms
of the opcodes, and what a word that selects no command does to the block. -/

namespace Sys2Proof.Machine

variable {p : Params} {v : Byte} {i : Instr}

/-! ### The opcode map and the encoder -/

theorem opcodeMap_encode (i : Instr) : opcodeMap (encode i).toNat = some i := by
  cases i <;> rfl

/-- R93: the map answers with a command at its opcode alone. -/
theorem eq_opcode_of_opcodeMap {n : Nat} (h : opcodeMap n = some i) : n = (encode i).toNat := by
  unfold opcodeMap at h
  split at h <;> cases h <;> rfl

/-- R94: the test `v = opcode` on all eight bits. -/
theorem opcodeMap_eq_some_iff : opcodeMap v.toNat = some i ↔ v = encode i :=
  ⟨fun h => BitVec.eq_of_toNat_eq (eq_opcode_of_opcodeMap h), fun h => h ▸ opcodeMap_encode i⟩

theorem opcodeMap_eq_none_iff : opcodeMap v.toNat = none ↔ ∀ i, v ≠ encode i := by
  simp [Option.eq_none_iff_forall_ne_some, opcodeMap_eq_some_iff]

/-- R93, R98: every opcode is one of `0x01` to `0x0B`. -/
theorem encode_assigned : ∀ i : Instr, Laws.AssignedOpcode.Statement i
  | .cobsEnc => Laws.AssignedOpcode.cobsEnc
  | .cobsDec => Laws.AssignedOpcode.cobsDec
  | .ksfSet => Laws.AssignedOpcode.ksfSet
  | .ksfRst => Laws.AssignedOpcode.ksfRst
  | .ksfGet => Laws.AssignedOpcode.ksfGet
  | .vigSetpw => Laws.AssignedOpcode.vigSetpw
  | .vigRstidx => Laws.AssignedOpcode.vigRstidx
  | .vigEnc => Laws.AssignedOpcode.vigEnc
  | .vigDec => Laws.AssignedOpcode.vigDec
  | .xorEnc => Laws.AssignedOpcode.xorEnc
  | .xorDec => Laws.AssignedOpcode.xorDec

/-! ### The decoder -/

/-- R95: the word of a command decodes to it in a block that has its unit, and is unassigned in any other. -/
theorem decode_encode (p : Params) (i : Instr) :
    decode p (encode i) = if i.wellFormed p then .ok i else .error .absentUnit := by
  rw [decode, opcodeMap_encode]

/-- R98: a word that is the opcode of no command is reserved. -/
theorem decode_reserved (h : ∀ i, v ≠ encode i) : decode p v = .error .reservedOpcode := by
  rw [decode, opcodeMap_eq_none_iff.mpr h]

theorem decode_eq_ok_iff : decode p v = .ok i ↔ v = encode i ∧ i.wellFormed p = true := by
  by_cases hv : ∃ j, v = encode j
  · obtain ⟨j, rfl⟩ := hv
    have hinj : encode j = encode i ↔ j = i := by rw [← opcodeMap_eq_some_iff, opcodeMap_encode, Option.some.injEq]
    rw [decode_encode, hinj]
    by_cases hj : j.wellFormed p = true
    · rw [if_pos hj, Except.ok.injEq]
      exact ⟨fun h => ⟨h, h ▸ hj⟩, fun h => h.1⟩
    · rw [if_neg hj]
      exact ⟨nofun, fun ⟨h, hi⟩ => absurd (h ▸ hi) hj⟩
  · have hne := not_exists.mp hv
    rw [decode_reserved hne]
    exact ⟨nofun, fun h => absurd h.1 (hne i)⟩

theorem decode_eq_reserved_iff : decode p v = .error .reservedOpcode ↔ ∀ i, v ≠ encode i := by
  refine ⟨?_, decode_reserved⟩
  rintro h i rfl
  rw [decode_encode] at h
  split at h <;> cases h

/-- Settles O2: both directions of the decoder's answer, and the words that are the opcode of no command. -/
theorem decodeAcceptsExactlyEachOpcode : Obligations.DecodeAcceptsExactlyEachOpcode :=
  ⟨fun _ _ _ => decode_eq_ok_iff, fun _ _ => decode_eq_reserved_iff⟩

/-! ### The units of a block -/

/-- R95: a block with both optional units has every command. -/
theorem wellFormed_of_units (hvig : p.hasVig = true) (hxor : p.hasXor = true) (i : Instr) : i.wellFormed p = true := by
  cases i with
  | vigSetpw | vigRstidx | vigEnc | vigDec => exact hvig
  | xorEnc | xorDec => exact hxor
  | cobsEnc | cobsDec | ksfSet | ksfRst | ksfGet => rfl

/-- Settles O1: each row of the map is an opcode with its command and that command's columns, and the remaining words lie
outside the range of the opcodes. -/
theorem commandWordsDecodeAsTabled : Obligations.CommandWordsDecodeAsTabled := by
  refine fun p hvig hxor => ⟨fun row hrow => ?_, fun v hv => decode_reserved ?_⟩
  · have hcols : row.1 = encode row.2.1 ∧ readsIbuf row.2.1 = row.2.2.1 ∧ producesBuffer row.2.1 = row.2.2.2 := by
      revert row
      decide
    obtain ⟨hword, hcols⟩ := hcols
    exact ⟨decode_eq_ok_iff.mpr ⟨hword, wellFormed_of_units hvig hxor _⟩, hcols⟩
  · rintro i rfl
    obtain ⟨hmin, hmax⟩ := encode_assigned i
    rcases hv with hv | hv
    · rw [hv] at hmin
      exact absurd hmin (by decide)
    · omega

/-- R95: the opcode of a command whose unit the block lacks. -/
theorem decode_absentUnit (hv : v = encode i) (h : i.wellFormed p = false) : decode p v = .error .absentUnit := by
  rw [hv, decode_encode, h, if_neg Bool.false_ne_true]

/-- Settles O3: the words of each range are the opcodes of the commands of its unit. -/
theorem absentUnitsOpcodesAreUnassigned : Obligations.AbsentUnitsOpcodesAreUnassigned := by
  refine fun p => ⟨fun hvig v hmin hmax => ?_, fun hxor v hmin hmax => ?_, fun i hi => ?_⟩
  · have hv : v = encode .vigSetpw ∨ v = encode .vigRstidx ∨ v = encode .vigEnc ∨ v = encode .vigDec := by
      simp only [encode]
      bv_omega
    rcases hv with hv | hv | hv | hv <;> exact decode_absentUnit hv hvig
  · have hv : v = encode .xorEnc ∨ v = encode .xorDec := by
      simp only [encode]
      bv_omega
    rcases hv with hv | hv <;> exact decode_absentUnit hv hxor
  · refine decode_eq_ok_iff.mpr ⟨rfl, ?_⟩
    fin_cases hi <;> rfl

/-! ### A word that selects no command -/

/-- R98: the word stays in CMD and STATUS records IllegalCommand. -/
theorem writeCmd_of_rejected {s : State} {why : Rejection} (h : decode s.cfg v = .error why) :
    writeCmd v s = .next (s.illegalCommand v) := by
  rw [writeCmd, h]

/-- Settles O5: the port hands the word to `writeCmd`, and `illegalCommand` is the state named. -/
theorem unassignedOpcodeEndsWithIllegalCommand : Obligations.UnassignedOpcodeEndsWithIllegalCommand := by
  intro s v rest why hin hv hb hd
  rw [step_cons hin]
  exact (hostWrite_cmd (s := { s with inputs := rest }) hb hv).trans (writeCmd_of_rejected hd)

end Sys2Proof.Machine
end

section
/-! The decoder's walk over a payload without zeros (rules R140, R144 to R146): nothing is stripped, the bound on the number
of blocks does not matter once it is large enough, and what one block gives. -/

namespace Sys2Proof.Machine

/-! ### The strip and the check -/

theorem dropWhile_zeros_of_noZero {y : List Byte} (h : (0 : Byte) ∉ y) : y.dropWhile (· == 0) = y := by
  cases y with
  | nil => rfl
  | cons b bs => exact List.dropWhile_cons_of_neg fun hb => List.ne_of_not_mem_cons h (eq_of_beq hb).symm

theorem stripZeros_of_noZero {y : List Byte} (h : (0 : Byte) ∉ y) : stripZeros y = y := by
  rw [stripZeros, dropWhile_zeros_of_noZero h, dropWhile_zeros_of_noZero (mt List.mem_reverse.mp h), List.reverse_reverse]

/-- R140: a payload without zeros is walked as it stands. -/
theorem cobsDecode_of_noZero {y : List Byte} (h : (0 : Byte) ∉ y) : cobsDecode y = .ok (walkBlocks y.length y) := by
  rw [cobsDecode, stripZeros_of_noZero h, if_neg (by simpa using h)]

/-! ### The walk -/

/-- The walk does not depend on its bound, when that is at least the length of the payload. -/
theorem walkBlocks_fuel {f g : Nat} {y : List Byte} (hf : y.length ≤ f) (hg : y.length ≤ g) :
    walkBlocks f y = walkBlocks g y := by
  induction f generalizing g y with
  | zero => rw [List.eq_nil_of_length_eq_zero (Nat.le_zero.mp hf), walkBlocks, walkBlocks]
  | succ f ih =>
    cases y with
    | nil => rw [walkBlocks, walkBlocks]
    | cons c rest =>
      rw [List.length_cons] at hf hg
      obtain ⟨g, rfl⟩ := Nat.exists_eq_add_one_of_ne_zero (Nat.ne_zero_of_lt hg)
      have hdrop : (rest.drop (c.toNat - 1)).length ≤ rest.length := by simp
      simp only [walkBlocks]
      rw [ih (g := g) (by omega) (by omega)]

/-- R144, R145: a block with all its literal bytes, before the rest of the payload. -/
theorem walkBlocks_block {c : Byte} {lits : List Byte} (fuel : Nat) (rest : List Byte) (h : lits.length = c.toNat - 1) :
    walkBlocks (fuel + 1) (c :: lits ++ rest) =
      lits ++ (if c.toNat < 255 ∧ rest ≠ [] then [0] else []) ++ walkBlocks fuel rest := by
  simp only [List.cons_append, walkBlocks]
  rw [List.take_left' h, List.drop_left' h]

/-- R146: the last block, of as many literal bytes as there are. -/
theorem walkBlocks_last {c : Byte} {lits : List Byte} (fuel : Nat) (h : lits.length ≤ c.toNat - 1) :
    walkBlocks (fuel + 1) (c :: lits) = lits := by
  simp [walkBlocks, List.take_of_length_le h, List.drop_of_length_le h]

/-- Settles O34: the payload is walked as it stands, one block first, and the rest under a bound that is still enough. -/
theorem decodeWalksBlockByBlock : Obligations.DecodeWalksBlockByBlock := by
  refine ⟨fun c lits rest out hc hlits hlen hne hrest hout => ?_, fun c lits hc hlits hlen => ?_⟩
  · have hpayload : (0 : Byte) ∉ c :: lits ++ rest :=
      List.not_mem_append (List.not_mem_cons_of_ne_of_not_mem hc.symm hlits) hrest
    have hwalk : walkBlocks (lits ++ rest).length rest = out := by
      rw [cobsDecode_of_noZero hrest, Except.ok.injEq] at hout
      rw [← hout]
      exact walkBlocks_fuel (by simp) le_rfl
    rw [cobsDecode_of_noZero hpayload, List.cons_append, List.length_cons, ← List.cons_append,
      walkBlocks_block _ rest hlen, hwalk]
    simp [hne]
  · have hpayload : (0 : Byte) ∉ c :: lits := List.not_mem_cons_of_ne_of_not_mem hc.symm hlits
    rw [cobsDecode_of_noZero hpayload, List.length_cons, walkBlocks_last _ hlen]

end Sys2Proof.Machine
end

section
/-! LOAD (rules R109, R243): the writes of IBUF one after the other store the bytes as one run, and the write of ILEN then
leaves the block as `State.load` has it. -/

namespace Sys2Proof.Machine

/-- One step of a run, the rest of it from where that step leads. -/
theorem run_succ_of_step {s t : State} (k : Nat) (h : step s = .next t) :
    Host.Core.run core (k + 1) s = Host.Core.run core k t := by
  have hstep : core.step s = .next t := h
  simp only [Host.Core.run, hstep]

theorem store_nil (m : Mem) : m.store 0 [] = m := by
  simp [Mem.store, cellsFrom]

/-- The block of `s` in which `written` stands at the start of IBUF, with the accesses `inputs` to come. -/
def State.midLoad (s : State) (written : List Byte) (inputs : List HostAction) : State :=
  { s with ibuf := s.ibuf.store 0 written, inputs := inputs }

/-- R62: the write of the byte after those already written. -/
theorem midLoad_step {s : State} {b : Byte} {written : List Byte} {rest : List HostAction} (hb : s.status.busy = false)
    (h : written.length < s.cfg.inMax) :
    step (s.midLoad written (Script.wrIbuf written.length b ++ rest)) = .next (s.midLoad (written ++ [b]) rest) := by
  have hwrite := hostWrite_ibuf (s := s.midLoad written rest) hb h b.isLt
  rw [step_cons (a := .write (.bytes .ibuf) written.length b.toNat) (rest := rest) rfl]
  refine hwrite.trans ?_
  simp [State.midLoad, store_append]

/-- R109: the writes of IBUF, one a step, then whatever the host does next. -/
theorem midLoad_run {s : State} {bytes written : List Byte} {rest : List HostAction} (k : Nat)
    (hb : s.status.busy = false) (h : written.length + bytes.length ≤ s.cfg.inMax) :
    Host.Core.run core (bytes.length + k) (s.midLoad written (Script.wrBytes written.length bytes ++ rest)) =
      Host.Core.run core k (s.midLoad (written ++ bytes) rest) := by
  induction bytes generalizing written with
  | nil => simp [Script.wrBytes]
  | cons b bytes ih =>
    rw [List.length_cons] at h
    have hnext := ih (written := written ++ [b]) (by simp; omega)
    rw [List.length_append, List.length_singleton, List.append_assoc, List.singleton_append] at hnext
    rw [Script.wrBytes, List.append_assoc, List.length_cons, Nat.add_right_comm,
      run_succ_of_step _ (midLoad_step hb (by omega)), hnext]

/-- R109: the accesses of LOAD, one a step, leave of the block what `State.load` says. -/
theorem run_load {s : State} {bytes : List Byte} {rest : List HostAction} (hb : s.status.busy = false)
    (hfits : bytes.length ≤ s.cfg.inMax) (hword : bytes.length < 65536) (hin : s.inputs = Script.load bytes ++ rest) :
    Host.Core.run core (bytes.length + 1) s = .next { s.load bytes with inputs := rest } := by
  have hstart : s = s.midLoad [] (Script.wrBytes 0 bytes ++ (Script.wrIlen bytes.length ++ rest)) := by
    rw [State.midLoad, store_nil, ← List.append_assoc, ← Script.load, ← hin]
  have hilen : step (s.midLoad bytes (Script.wrIlen bytes.length ++ rest)) = .next { s.load bytes with inputs := rest } :=
    hostWrite_ilen (s := s.midLoad bytes rest) hb hword
  calc Host.Core.run core (bytes.length + 1) s
      = Host.Core.run core 1 (s.midLoad bytes (Script.wrIlen bytes.length ++ rest)) := by
        conv_lhs => rw [hstart]
        exact midLoad_run (written := []) 1 hb (by simpa using hfits)
    _ = .next { s.load bytes with inputs := rest } := run_succ_of_step 0 hilen

/-- R5: a length that fits IBUF fits the 16 bits of ILEN. -/
theorem inMax_lt_of_legal {p : Params} (h : p.legal = true) : p.inMax < 65536 := by
  simp only [Params.legal, Bool.and_eq_true, decide_eq_true_eq] at h
  omega

/-- Settles O57: the run ends in `State.load`, whose operand is the bytes and which keeps the bytes of IBUF beyond them. -/
theorem loadDeliversTheOperand : Obligations.LoadDeliversTheOperand := by
  intro s bytes rest hlegal hb hfits hin
  have hword : bytes.length < 65536 := hfits.trans_lt (inMax_lt_of_legal hlegal)
  refine ⟨_, run_load hb hfits hword hin, load_operand (s := s) hword, fun j hj => ?_, rfl⟩
  exact (load_byteAt_ibuf bytes s j).trans (dif_neg hj.not_gt)

end Sys2Proof.Machine
end

section
/-! Segments and blocks (rules R120, R121): how a buffer splits at its first zero byte and a segment at its first 254 bytes,
and the inductions that these two splits give. -/

namespace Sys2Proof.Machine

/-! ### A buffer split at its first zero -/

theorem segments_of_noZero {seg : List Byte} (h : (0 : Byte) ∉ seg) : segments seg = [seg] := by
  induction seg with
  | nil => rfl
  | cons b seg ih =>
    exact segments_cons (List.ne_of_not_mem_cons h).symm (ih (List.not_mem_of_not_mem_cons h))

theorem segments_append_zero {seg : List Byte} (h : (0 : Byte) ∉ seg) (bs : List Byte) :
    segments (seg ++ 0 :: bs) = seg :: segments bs := by
  induction seg with
  | nil => exact segments_zero bs
  | cons b seg ih =>
    exact segments_cons (List.ne_of_not_mem_cons h).symm (ih (List.not_mem_of_not_mem_cons h))

/-- R120: a buffer is one segment without a zero, or such a segment, a zero, and the rest of the buffer. -/
theorem segmentInduction {motive : List Byte → Prop} (last : ∀ seg, (0 : Byte) ∉ seg → motive seg)
    (zero : ∀ seg bs, (0 : Byte) ∉ seg → motive bs → motive (seg ++ 0 :: bs)) (s : List Byte) : motive s := by
  by_cases h : (0 : Byte) ∈ s
  · obtain ⟨seg, bs, hs, hseg⟩ := List.eq_append_cons_of_mem h
    rw [hs]
    exact zero seg bs hseg (segmentInduction last zero bs)
  · exact last s h
termination_by s.length
decreasing_by rw [hs]; simp; omega

/-- Settles O26: the segments of a buffer without a zero, and of one split at its first zero. -/
theorem segmentsSplitTheBufferAtItsZeros : Obligations.SegmentsSplitTheBufferAtItsZeros := by
  intro s
  induction s using segmentInduction with
  | last seg hseg =>
    rw [segments_of_noZero hseg, List.count_eq_zero.mpr hseg]
    exact ⟨rfl, fun x hx => List.mem_singleton.mp hx ▸ hseg, List.intercalate_singleton⟩
  | zero seg bs hseg ih =>
    obtain ⟨hlen, hnoZero, hjoin⟩ := ih
    rw [segments_append_zero hseg]
    refine ⟨?_, List.forall_mem_cons.mpr ⟨hseg, hnoZero⟩, ?_⟩
    · rw [List.length_cons, hlen, List.count_append, List.count_eq_zero.mpr hseg, List.count_cons_self, Nat.zero_add]
    · rw [List.intercalate_cons_of_ne_nil (segments_ne_nil bs), hjoin, List.append_assoc, List.singleton_append]

/-! ### The encoding, segment by segment -/

/-- R121: what a buffer with one segment emits. -/
theorem cobsEncode_of_noZero {seg : List Byte} (h : (0 : Byte) ∉ seg) : cobsEncode seg = emitSegment true seg := by
  rw [cobsEncode, segments_of_noZero h, emitSegments]

/-- R121: what the first of several segments emits stands first. -/
theorem emitSegments_cons (seg : List Byte) {segs : List (List Byte)} (h : segs ≠ []) :
    emitSegments (seg :: segs) = emitSegment false seg ++ emitSegments segs := by
  obtain ⟨next, rest, rfl⟩ := List.exists_cons_of_ne_nil h
  rw [emitSegments]

theorem cobsEncode_append_zero {seg : List Byte} (h : (0 : Byte) ∉ seg) (bs : List Byte) :
    cobsEncode (seg ++ 0 :: bs) = emitSegment false seg ++ cobsEncode bs := by
  rw [cobsEncode, segments_append_zero h, emitSegments_cons seg (segments_ne_nil bs), cobsEncode]

/-! ### A segment split at its first 254 bytes -/

theorem fullBlocks_succ (count : Nat) {block : List Byte} (h : block.length = 254) (seg : List Byte) :
    fullBlocks (count + 1) (block ++ seg) = 255 :: block ++ fullBlocks count seg := by
  rw [fullBlocks, List.take_left' h, List.drop_left' h]

/-- R121: a segment shorter than a full block is one block; the empty one too, with its code byte 1. -/
theorem emitSegment_short (last : Bool) {seg : List Byte} (h : seg.length < 254) :
    emitSegment last seg = BitVec.ofNat 8 (seg.length + 1) :: seg := by
  cases seg with
  | nil => rfl
  | cons b seg =>
    simp only [emitSegment, Nat.div_eq_of_lt h, Nat.mod_eq_of_lt h]
    simp [fullBlocks]

/-- R121: a segment that is one full block and ends the buffer: no byte stands for a zero after it. -/
theorem emitSegment_full {block : List Byte} (h : block.length = 254) : emitSegment true block = 255 :: block := by
  simp [emitSegment, h, fullBlocks, List.take_of_length_le]

/-- R121: a full block stands first; what follows is as for the segment without it, unless that is empty and the last. -/
theorem emitSegment_block {last : Bool} {block seg : List Byte} (h : block.length = 254) (hne : last = true → seg ≠ []) :
    emitSegment last (block ++ seg) = 255 :: block ++ emitSegment last seg := by
  have hlen : (block ++ seg).length = seg.length + 254 := by simp [h, Nat.add_comm]
  have hdrop : (block ++ seg).drop (254 * (seg.length / 254 + 1)) = seg.drop (254 * (seg.length / 254)) := by
    rw [Nat.mul_add_one, Nat.add_comm, ← List.drop_drop, List.drop_left' h]
  simp only [emitSegment, hlen, Nat.add_div_right _ (show 0 < 254 by decide), Nat.add_mod_right, fullBlocks_succ _ h, hdrop,
    List.append_assoc]
  cases seg with
  | nil => cases last <;> simp_all [fullBlocks]
  | cons b seg => simp

/-- R121: a segment that is one full block with a zero after it: the extra code byte stands for that zero. -/
theorem emitSegment_full_inner {block : List Byte} (h : block.length = 254) :
    emitSegment false block = 255 :: block ++ [1] := by
  simpa [emitSegment_short] using emitSegment_block (last := false) (seg := []) h nofun

/-- R121: a segment is shorter than a full block, or a full block and the rest of the segment. -/
theorem blockInduction {motive : List Byte → Prop} (short : ∀ seg, seg.length < 254 → motive seg)
    (block : ∀ block seg, block.length = 254 → motive seg → motive (block ++ seg)) (seg : List Byte) : motive seg := by
  by_cases h : seg.length < 254
  · exact short seg h
  · rw [← List.take_append_drop 254 seg]
    exact block _ _ (by simp; omega) (blockInduction short block (seg.drop 254))
termination_by seg.length
decreasing_by simp; omega

/-- The code byte of a block shorter than a full one. -/
theorem codeByte_toNat {n : Nat} (h : n < 254) : (BitVec.ofNat 8 (n + 1)).toNat = n + 1 := by
  rw [BitVec.toNat_ofNat]; omega

theorem codeByte_ne_zero {n : Nat} (h : n < 254) : BitVec.ofNat 8 (n + 1) ≠ 0 := by
  rw [← BitVec.toNat_ne_iff_ne, codeByte_toNat h]
  exact Nat.succ_ne_zero n

end Sys2Proof.Machine
end

section
/-! The encoder's output (rules R125 to R127): it has no zero byte, how long it is, and the table about the 254 boundary. -/

namespace Sys2Proof.Machine

/-! ### No zero byte -/

theorem emitSegment_ne_nil (last : Bool) (seg : List Byte) : emitSegment last seg ≠ [] := by
  refine List.ne_nil_of_length_pos ?_
  rw [emitSegment_length]
  split <;> omega

/-- R126: every code byte is at least 1, and the literal bytes are the segment's. -/
theorem emitSegment_noZero (last : Bool) {seg : List Byte} (h : (0 : Byte) ∉ seg) : (0 : Byte) ∉ emitSegment last seg := by
  induction seg using blockInduction with
  | short seg hlen =>
    rw [emitSegment_short last hlen]
    exact List.not_mem_cons_of_ne_of_not_mem (codeByte_ne_zero hlen).symm h
  | block block seg hlen ih =>
    rw [List.mem_append, not_or] at h
    obtain ⟨hblock, hseg⟩ := h
    have hfull : (0 : Byte) ∉ 255 :: block := List.not_mem_cons_of_ne_of_not_mem (by decide) hblock
    by_cases hend : last = true ∧ seg = []
    · obtain ⟨rfl, rfl⟩ := hend
      rwa [List.append_nil, emitSegment_full hlen]
    · rw [emitSegment_block hlen (not_and.mp hend)]
      exact List.not_mem_append hfull (ih hseg)

theorem cobsEncode_ne_nil (s : List Byte) : cobsEncode s ≠ [] := by
  induction s using segmentInduction with
  | last seg hseg => rw [cobsEncode_of_noZero hseg]; exact emitSegment_ne_nil true seg
  | zero seg bs hseg ih => rw [cobsEncode_append_zero hseg]; exact List.append_ne_nil_of_right_ne_nil _ ih

theorem cobsEncode_noZero (s : List Byte) : (0 : Byte) ∉ cobsEncode s := by
  induction s using segmentInduction with
  | last seg hseg => rw [cobsEncode_of_noZero hseg]; exact emitSegment_noZero true hseg
  | zero seg bs hseg ih =>
    rw [cobsEncode_append_zero hseg]
    exact List.not_mem_append (emitSegment_noZero false hseg) ih

/-- Settles O27: by the segments of the buffer and the blocks of each. -/
theorem encoderOutputHasNoZero : Obligations.EncoderOutputHasNoZero :=
  fun s => ⟨cobsEncode_ne_nil s, cobsEncode_noZero s⟩

/-! ### The 254 boundary -/

/-- Settles O29: each row is segments of at most two full blocks and a short one, and what these emit. -/
theorem encoderAtThe254Boundary : Obligations.EncoderAtThe254Boundary := by
  intro d e hd he hd0 he0
  have hshort : (d.take 253).length = 253 := by simp [hd]
  have hshort0 : (0 : Byte) ∉ d.take 253 := fun h => hd0 (List.mem_of_mem_take h)
  have hde0 : (0 : Byte) ∉ d ++ e := List.not_mem_append hd0 he0
  have he_ne : e ≠ [] := List.ne_nil_of_length_pos (by omega)
  have hcode (last : Bool) : emitSegment last (d.take 253) = 0xFE :: d.take 253 := by
    rw [emitSegment_short last (by omega), hshort]
    rfl
  have hempty : cobsEncode [] = [0x01] := by decide
  have hlast : cobsEncode [0x33] = [0x02, 0x33] := by decide
  refine ⟨?_, ?_, fun x hx => ?_, ?_, ?_, ?_, ?_, ?_⟩
  · rw [cobsEncode_of_noZero hshort0, hcode]
  · rw [cobsEncode_of_noZero hd0, emitSegment_full hd]
  · have hx0 : (0 : Byte) ∉ [x] := fun h => hx (List.mem_singleton.mp h).symm
    rw [cobsEncode_of_noZero (List.not_mem_append hd0 hx0), emitSegment_block hd fun _ => List.cons_ne_nil x [],
      emitSegment_short true (by simp)]
    rfl
  · rw [cobsEncode_of_noZero hde0, emitSegment_block hd fun _ => he_ne, emitSegment_full he]
  · rw [cobsEncode_append_zero hd0, emitSegment_full_inner hd, hempty, List.append_assoc]
    rfl
  · rw [cobsEncode_append_zero hd0, emitSegment_full_inner hd, hlast, List.append_assoc]
    rfl
  · rw [cobsEncode_append_zero hshort0, hcode, hempty]
  · rw [cobsEncode_append_zero hde0, emitSegment_block (last := false) hd nofun, emitSegment_full_inner he, hlast]
    simp

/-! ### The length -/

theorem emitSegments_concat (init : List (List Byte)) (final : List Byte) :
    emitSegments (init ++ [final]) = init.flatMap (emitSegment false) ++ emitSegment true final := by
  induction init with
  | nil => rfl
  | cons seg init ih =>
    rw [List.cons_append, emitSegments_cons seg (List.concat_ne_nil final init), ih, List.flatMap_cons, List.append_assoc]

/-- R127: each segment before the last emits its bytes, a byte for each full block, and one for the zero after it. -/
theorem flatMap_emitSegment_length (init : List (List Byte)) :
    (init.flatMap (emitSegment false)).length = spanOf init + (init.map (fun seg => seg.length / 254)).sum := by
  induction init with
  | nil => rfl
  | cons seg init ih =>
    have hseg : (emitSegment false seg).length = seg.length + seg.length / 254 + 1 := by simp [emitSegment_length]
    rw [List.flatMap_cons, List.length_append, ih, hseg, spanOf_cons, List.map_cons, List.sum_cons]
    omega

/-- R127: what the last segment emits beyond its bytes, `g` of the rule. -/
theorem emitSegment_true_length (seg : List Byte) : (emitSegment true seg).length =
    seg.length + if seg.length = 0 then 1 else (seg.length + 253) / 254 := by
  simp only [emitSegment_length, and_true]
  split <;> split <;> omega

/-- R127: the length of the encoding from the lengths of the segments. -/
theorem cobsEncode_length {s final : List Byte} {init : List (List Byte)} (h : segments s = init ++ [final]) :
    (cobsEncode s).length = s.length + (init.map (fun seg => seg.length / 254)).sum +
      (if final.length = 0 then 1 else (final.length + 253) / 254) := by
  have hspan : spanOf init + final.length = s.length := by
    have hsum := spanOf_segments s
    rw [h] at hsum
    simpa [spanOf, ← Nat.add_assoc] using hsum
  rw [cobsEncode, h, emitSegments_concat, List.length_append, flatMap_emitSegment_length, emitSegment_true_length]
  omega

/-- Settles O28: the length by segments, its bounds, and the row of the 254 boundary that reaches the upper one. -/
theorem encodedLengthIsAsGiven : Obligations.EncodedLengthIsAsGiven := by
  refine ⟨fun s init final => cobsEncode_length,
    fun s => ⟨List.length_pos_of_ne_nil (cobsEncode_ne_nil s), cobsEncode_length_le s⟩, fun d hd hd0 => ?_⟩
  have hempty : cobsEncode [] = [1] := by decide
  rw [cobsEncode_append_zero hd0, emitSegment_full_inner hd, hempty]
  simp [hd]

end Sys2Proof.Machine
end

section
/-! The laws of the encoder (rules R129, R130): the decoder gives every buffer back from its encoding, and the single pass
emits the encoding. -/

namespace Sys2Proof.Machine

/-! ### The round trip -/

/-- R129: the last segment of a buffer. -/
theorem cobsDecode_emitSegment_last {seg : List Byte} (h : (0 : Byte) ∉ seg) :
    cobsDecode (emitSegment true seg) = .ok seg := by
  obtain ⟨hblock, hlast⟩ := decodeWalksBlockByBlock
  induction seg using blockInduction with
  | short seg hlen =>
    rw [emitSegment_short true hlen]
    exact hlast _ seg (codeByte_ne_zero hlen) h (by rw [codeByte_toNat hlen]; omega)
  | block block seg hlen ih =>
    rw [List.mem_append, not_or] at h
    obtain ⟨hnoZero, hseg⟩ := h
    by_cases hend : seg = []
    · rw [hend, List.append_nil, emitSegment_full hlen]
      exact hlast 255 block (by decide) hnoZero hlen.le
    · rw [emitSegment_block hlen fun _ => hend]
      simpa using hblock 255 block _ seg (by decide) hnoZero hlen (emitSegment_ne_nil true seg)
        (emitSegment_noZero true hseg) (ih hseg)

/-- R129: a segment that a zero ends, with what follows that zero. -/
theorem cobsDecode_emitSegment_inner {seg rest out : List Byte} (h : (0 : Byte) ∉ seg) (hne : rest ≠ [])
    (hrest : (0 : Byte) ∉ rest) (hout : cobsDecode rest = .ok out) :
    cobsDecode (emitSegment false seg ++ rest) = .ok (seg ++ 0 :: out) := by
  obtain ⟨hblock, -⟩ := decodeWalksBlockByBlock
  induction seg using blockInduction with
  | short seg hlen =>
    have hcode := codeByte_toNat hlen
    rw [emitSegment_short false hlen, hblock _ seg rest out (codeByte_ne_zero hlen) h (by omega) hne hrest hout,
      if_pos (by omega), List.append_assoc, List.singleton_append]
  | block block seg hlen ih =>
    rw [List.mem_append, not_or] at h
    obtain ⟨hnoZero, hseg⟩ := h
    rw [emitSegment_block (last := false) hlen nofun, List.append_assoc, List.append_assoc]
    simpa using hblock 255 block _ _ (by decide) hnoZero hlen (List.append_ne_nil_of_right_ne_nil _ hne)
      (List.not_mem_append (emitSegment_noZero false hseg) hrest) (ih hseg)

/-- Settles O31: segment by segment, and each segment block by block. -/
theorem decodeInvertsEncode : Obligations.DecodeInvertsEncode := by
  intro x
  induction x using segmentInduction with
  | last seg hseg =>
    rw [cobsEncode_of_noZero hseg]
    exact cobsDecode_emitSegment_last hseg
  | zero seg bs hseg ih =>
    rw [cobsEncode_append_zero hseg]
    exact cobsDecode_emitSegment_inner hseg (cobsEncode_ne_nil bs) (cobsEncode_noZero bs) ih

/-! ### The single pass -/

/-- R130: a zero, or the end of the buffer, ends the pending bytes as a block of their own. -/
theorem pendingBlock (last : Bool) {blk : List Byte} (h : blk.length < 254) :
    (if blk ≠ [] then BitVec.ofNat 8 (blk.length + 1) :: blk else [1]) = emitSegment last blk := by
  rw [emitSegment_short last h]
  split
  · rfl
  · simp_all

theorem singlePass_full {blk : List Byte} {nz : Bool} {b : Byte} (hb : b ≠ 0) (h : blk.length + 1 = 254)
    (bs : List Byte) :
    singlePass blk nz (b :: bs) = 255 :: (blk ++ [b]) ++ singlePass [] true bs := by
  rw [singlePass, if_pos hb, if_pos h, List.cons_append]

theorem singlePass_pending {blk : List Byte} {nz : Bool} {b : Byte} (hb : b ≠ 0) (h : blk.length + 1 ≠ 254)
    (bs : List Byte) :
    singlePass blk nz (b :: bs) = singlePass (blk ++ [b]) true bs := by
  rw [singlePass, if_pos hb, if_neg h]

theorem singlePass_zero {blk : List Byte} {nz : Bool} (h : blk.length < 254) (bs : List Byte) :
    singlePass blk nz (0 :: bs) = emitSegment false blk ++ singlePass [] false bs := by
  rw [singlePass, if_neg (by decide), pendingBlock false h]

/-- R130: the single pass over the rest of a segment that ends the buffer, with the bytes `blk` of the segment pending. -/
theorem singlePass_last {seg blk : List Byte} {nz : Bool} (h : (0 : Byte) ∉ seg) (hblk : blk.length < 254)
    (hne : nz = true → blk ++ seg ≠ []) : singlePass blk nz seg = emitSegment true (blk ++ seg) := by
  induction seg generalizing blk nz with
  | nil =>
    rw [List.append_nil, ← pendingBlock true hblk, singlePass]
    cases nz <;> simp_all
  | cons b seg ih =>
    have hb : b ≠ 0 := (List.ne_of_not_mem_cons h).symm
    have hseg : (0 : Byte) ∉ seg := List.not_mem_of_not_mem_cons h
    have hlen : (blk ++ [b]).length = blk.length + 1 := by simp
    rw [List.append_cons]
    by_cases hfull : blk.length + 1 = 254
    · rw [singlePass_full hb hfull]
      by_cases hend : seg = []
      · rw [hend, List.append_nil, emitSegment_full (hlen.trans hfull)]
        simp [singlePass]
      · rw [emitSegment_block (hlen.trans hfull) fun _ => hend, ih (blk := []) hseg (by decide) fun _ => hend,
          List.nil_append]
    · rw [singlePass_pending hb hfull]
      exact ih hseg (by omega) (by simp)

/-- R130: the single pass over the rest of a segment that a zero ends, with the bytes `blk` of the segment pending. -/
theorem singlePass_inner {seg blk : List Byte} {nz : Bool} (h : (0 : Byte) ∉ seg) (hblk : blk.length < 254)
    (bs : List Byte) :
    singlePass blk nz (seg ++ 0 :: bs) = emitSegment false (blk ++ seg) ++ singlePass [] false bs := by
  induction seg generalizing blk nz with
  | nil => rw [List.nil_append, singlePass_zero hblk, List.append_nil]
  | cons b seg ih =>
    have hb : b ≠ 0 := (List.ne_of_not_mem_cons h).symm
    have hseg : (0 : Byte) ∉ seg := List.not_mem_of_not_mem_cons h
    have hlen : (blk ++ [b]).length = blk.length + 1 := by simp
    rw [List.append_cons blk, List.cons_append]
    by_cases hfull : blk.length + 1 = 254
    · rw [singlePass_full hb hfull, emitSegment_block (last := false) (hlen.trans hfull) nofun,
        ih (blk := []) hseg (by decide), List.nil_append, List.append_assoc]
    · rw [singlePass_pending hb hfull]
      exact ih hseg (by omega)

/-- Settles O30: segment by segment, with nothing pending at the start of each. -/
theorem singlePassEncoderAgrees : Obligations.SinglePassEncoderAgrees := by
  intro s
  induction s using segmentInduction with
  | last seg hseg =>
    rw [singlePass_last (blk := []) (nz := false) hseg (by decide) nofun, cobsEncode_of_noZero hseg, List.nil_append]
  | zero seg bs hseg ih =>
    rw [singlePass_inner (blk := []) hseg (by decide), ih, cobsEncode_append_zero hseg, List.nil_append]

end Sys2Proof.Machine
end

section
/-! The commands that deliver a function of their operand (rules R96, R97, R121, R140, R200, R201): the state they leave, what
it shares with the one before, and that they read no feeder state (R128, R150, R200). -/

namespace Sys2Proof.Machine

/-! ### The state such a command leaves -/

/-- R96, R97: what the command `i` leaves of the block at its successful end, when its result is `out`. -/
def State.delivered (i : Instr) (out : List Byte) (s : State) : State := ((s.start (encode i)).withResult out).done

/-- A command that delivers a function of its operand, on an operand that fits and has a value. -/
theorem runCommand_deliver (i : Instr) (f : List Byte → Except ErrorKind (List Byte)) {s : State} {out : List Byte}
    (hfits : s.ilen.toNat ≤ s.cfg.inMax) (hf : f s.operand = .ok out) (hout : out.length ≤ outMax s.cfg) :
    runCommand i (fun u => deliver i (f u.operand) u) s = .next (s.delivered i out) :=
  runCommand_fits (fun _ => hfits) (deliver_ok.mpr (.inr ⟨out, hf, hout, rfl⟩))

theorem delivered_succeeded (i : Instr) (out : List Byte) (s : State) : Succeeded i (s.delivered i out) :=
  ⟨rfl, rfl⟩

/-- R33: OBUF and OLEN hold the result, and OBUF beyond it is as it was. -/
theorem delivered_resultIs (i : Instr) {out : List Byte} (s : State) (h : out.length < 65536) :
    ResultIs out s (s.delivered i out) where
  olen := Nat.mod_eq_of_lt h
  bytes j hj := (withResult_byteAt_obuf out _ j).trans (dif_pos hj)
  rest j hj := (withResult_byteAt_obuf out _ j).trans (dif_neg hj.not_gt)

theorem delivered_result (i : Instr) {out : List Byte} (s : State) (h : out.length < 65536) :
    (s.delivered i out).result = out :=
  withResult_result (s := s.start (encode i)) h

theorem delivered_sameOperand (i : Instr) (out : List Byte) (s : State) : SameOperand s (s.delivered i out) :=
  ⟨rfl, fun _ => rfl⟩

theorem delivered_sameFeeder (i : Instr) (out : List Byte) (s : State) : SameFeeder s (s.delivered i out) :=
  ⟨⟨rfl, fun _ => rfl⟩, rfl⟩

theorem delivered_sameSurround (i : Instr) (out : List Byte) (s : State) : SameSurround s (s.delivered i out) :=
  ⟨rfl, rfl, rfl, rfl⟩

/-- R5, R6: a length that fits OBUF fits the 16 bits of OLEN. -/
theorem outMax_lt_of_legal {p : Params} (h : p.legal = true) : outMax p < 65536 := by
  simp only [Params.legal, Bool.and_eq_true, decide_eq_true_eq] at h
  rw [outMax]
  omega

/-! ### COBS_ENC, and COBS_DEC of what it left -/

/-- R6, R122: COBS_ENC of an operand that fits. -/
theorem exec_cobsEnc_fits {s : State} (h : s.ilen.toNat ≤ s.cfg.inMax) :
    exec .cobsEnc s = .next (s.delivered .cobsEnc (cobsEncode s.operand)) :=
  runCommand_deliver .cobsEnc (fun x => .ok (cobsEncode x)) h rfl (cobsEncode_fits ((operand_length s).trans_le h))

/-- R140, R141: COBS_DEC of an operand that fits and decodes. -/
theorem exec_cobsDec_fits {s : State} {out : List Byte} (h : s.ilen.toNat ≤ s.cfg.inMax)
    (hout : cobsDecode s.operand = .ok out) : exec .cobsDec s = .next (s.delivered .cobsDec out) := by
  have hlen : out.length ≤ s.operand.length := cobsDecode_length_le hout
  rw [operand_length] at hlen
  exact runCommand_deliver .cobsDec cobsDecode h hout ((hlen.trans h).trans (inMax_le_outMax _))

/-- Settles O21: the encoding of an operand that fits IBUF fits OBUF, and the command delivers it. -/
theorem cobsEncStoresTheEncoding : Obligations.CobsEncStoresTheEncoding := by
  intro s hlegal hfits
  have hout : (cobsEncode s.operand).length < 65536 :=
    (cobsEncode_fits ((operand_length s).trans_le hfits)).trans_lt (outMax_lt_of_legal hlegal)
  exact ⟨_, exec_cobsEnc_fits hfits, delivered_succeeded .., delivered_resultIs .cobsEnc s hout, delivered_sameOperand ..,
    delivered_sameFeeder .., rfl, delivered_sameSurround ..⟩

/-- Settles O32: the operand fed back is the encoding, and the decoder inverts the encoder. -/
theorem cobsCommandsRoundTrip : Obligations.CobsCommandsRoundTrip := by
  intro s t hlegal hfits henc holen
  have hword : s.operand.length < 65536 := by
    rw [operand_length]
    exact s.ilen.isLt
  have hout : (cobsEncode s.operand).length < 65536 :=
    (cobsEncode_fits ((operand_length s).trans_le hfits)).trans_lt (outMax_lt_of_legal hlegal)
  rw [exec_cobsEnc_fits hfits, Host.Outcome.next.injEq] at henc
  subst henc
  have hresult := delivered_result .cobsEnc s hout
  have hop : (s.delivered .cobsEnc (cobsEncode s.operand)).feedback.operand = cobsEncode s.operand := by
    rw [State.feedback, hresult]
    exact load_operand hout
  have hilen : (s.delivered .cobsEnc (cobsEncode s.operand)).feedback.ilen.toNat ≤ s.cfg.inMax := by
    rw [← operand_length, hop, ← hresult, result_length]
    exact holen
  have hdec := (congrArg cobsDecode hop).trans (decodeInvertsEncode s.operand)
  exact ⟨_, exec_cobsDec_fits hilen hdec, delivered_succeeded .., delivered_result .cobsDec _ hword⟩

/-! ### No feeder state -/

/-- A command that delivers a function of its operand does the same to everything else with any other feeder. -/
theorem deliver_command_any_feeder {i : Instr} (f : List Byte → Except ErrorKind (List Byte)) {s t : State} (m : Mem)
    (klen cur : Word) (h : runCommand i (fun u => deliver i (f u.operand) u) s = .next t) :
    runCommand i (fun u => deliver i (f u.operand) u) { s with key := m, klen := klen, cur := cur } =
      .next { t with key := m, klen := klen, cur := cur } := by
  rcases runCommand_next.mp h with ⟨hr, hlen, rfl⟩ | ⟨hfits, hok⟩
  · exact runCommand_oversize hr hlen
  · refine runCommand_next.mpr (.inr ⟨hfits, ?_⟩)
    rcases deliver_ok.mp hok with ⟨k, hk, rfl⟩ | ⟨out, hout, hlen, rfl⟩
    · exact deliver_ok.mpr (.inl ⟨k, hk, rfl⟩)
    · exact deliver_ok.mpr (.inr ⟨out, hout, hlen, rfl⟩)

/-- Settles O56: each of the four commands delivers a function of its operand. -/
theorem cobsAndXorCommandsIgnoreTheFeeder : Obligations.CobsAndXorCommandsIgnoreTheFeeder := by
  intro i s t m klen cur hi h
  rcases hi with rfl | rfl | rfl | rfl
  · exact deliver_command_any_feeder (fun x => .ok (cobsEncode x)) m klen cur h
  · exact deliver_command_any_feeder cobsDecode m klen cur h
  · exact deliver_command_any_feeder (fun x => .ok (xorMask x)) m klen cur h
  · exact deliver_command_any_feeder (fun x => .ok (xorMask x)) m klen cur h

end Sys2Proof.Machine
end

section
/-! The pseudocode of R122, run byte by byte, leaves in OBUF the encoding of the operand: each of its loops appends to the
bytes emitted so far what the function of R121 says. -/

namespace Sys2Proof.Machine

/-! ### The bytes read and the bytes emitted -/

/-- `IBUF[p .. p + count)`. -/
def State.inputRange (s : State) (p count : Nat) : List Byte := (List.range' p count).map (s.byteAt .ibuf)

theorem operand_eq_inputRange (s : State) : s.operand = s.inputRange 0 s.ilen.toNat := by
  rw [State.operand, State.bytesOf, State.inputRange, List.range_eq_range']

@[simp] theorem inputRange_length (s : State) (p count : Nat) : (s.inputRange p count).length = count := by
  simp [State.inputRange]

@[simp] theorem inputRange_zero (s : State) (p : Nat) : s.inputRange p 0 = [] := rfl

theorem inputRange_succ (s : State) (p count : Nat) :
    s.inputRange p (count + 1) = s.byteAt .ibuf p :: s.inputRange (p + 1) count := rfl

theorem inputRange_add (s : State) (p a b : Nat) : s.inputRange p (a + b) = s.inputRange p a ++ s.inputRange (p + a) b := by
  rw [State.inputRange, State.inputRange, State.inputRange, ← List.map_append, List.range'_append_1]

theorem inputRange_drop (s : State) (p a count : Nat) : (s.inputRange p count).drop a = s.inputRange (p + a) (count - a) := by
  rw [State.inputRange, State.inputRange, ← List.map_drop, List.drop_range', Nat.mul_one]

/-- OBUF and `o` of the pseudocode when `bytes` have been emitted to `OBUF[0 .. o)`. -/
def emitted (obuf : Mem) (bytes : List Byte) : Mem × Nat := (obuf.store 0 bytes, bytes.length)

variable {s : State} {obuf : Mem}

theorem emitted_nil (obuf : Mem) : emitted obuf [] = (obuf, 0) := by
  rw [emitted, store_nil, List.length_nil]

theorem emitByte_emitted (v : Byte) (bytes : List Byte) : emitByte v (emitted obuf bytes) = emitted obuf (bytes ++ [v]) := by
  rw [emitByte, emitted, store_append, emitted, List.length_append, List.length_singleton]

/-! ### One segment -/

theorem copyBytes_emitted (count p : Nat) (bytes : List Byte) :
    copyBytes s count p (emitted obuf bytes) = emitted obuf (bytes ++ s.inputRange p count) := by
  induction count generalizing p bytes with
  | zero => simp [copyBytes]
  | succ count ih => rw [copyBytes, emitByte_emitted, ih, inputRange_succ, List.append_assoc, List.singleton_append]

theorem copyFullBlocks_emitted {count len : Nat} (p : Nat) (bytes : List Byte) (h : 254 * count ≤ len) :
    copyFullBlocks s count p (emitted obuf bytes) = emitted obuf (bytes ++ fullBlocks count (s.inputRange p len)) := by
  induction count generalizing p len bytes with
  | zero => simp [copyFullBlocks, fullBlocks]
  | succ count ih =>
    obtain ⟨len, rfl⟩ := Nat.exists_eq_add_of_le (show 254 ≤ len by omega)
    rw [copyFullBlocks, emitByte_emitted, copyBytes_emitted, ih (len := len) _ _ (by omega), inputRange_add,
      fullBlocks_succ count (inputRange_length ..)]
    simp

/-- R122: one pass of the loop emits what R121 says of the segment. -/
theorem emitRange_emitted (last : Bool) (i j : Nat) (bytes : List Byte) :
    emitRange s last i j (emitted obuf bytes) = emitted obuf (bytes ++ emitSegment last (s.inputRange i (j - i))) := by
  have hfull := copyFullBlocks_emitted (s := s) (obuf := obuf) (len := j - i) i bytes (Nat.mul_div_le _ 254)
  have hrest : (s.inputRange i (j - i)).drop (254 * ((j - i) / 254)) =
      s.inputRange (i + 254 * ((j - i) / 254)) ((j - i) % 254) := by
    rw [inputRange_drop]
    congr 1
    omega
  simp only [emitRange, emitSegment, inputRange_length, hfull, hrest]
  by_cases h0 : j - i = 0
  · simp only [if_pos h0, emitByte_emitted]
  · by_cases hr : (j - i) % 254 = 0
    · cases last <;> simp [h0, hr, emitByte_emitted]
    · simp [h0, hr, emitByte_emitted, copyBytes_emitted]

/-! ### The loop over the segments -/

/-- R122: the inner loop stops at the end of the buffer or at the first zero of it. -/
theorem segmentEnd_spec {n fuel i : Nat} (h : n = i + fuel) :
    ∃ len, segmentEnd s n fuel i = i + len ∧ len ≤ fuel ∧ (0 : Byte) ∉ s.inputRange i len ∧
      (len < fuel → s.byteAt .ibuf (i + len) = 0) := by
  induction fuel generalizing i with
  | zero => exact ⟨0, rfl, le_rfl, List.not_mem_nil, nofun⟩
  | succ fuel ih =>
    by_cases hz : s.byteAt .ibuf i = 0
    · exact ⟨0, by simp [segmentEnd, hz], Nat.zero_le _, List.not_mem_nil, fun _ => hz⟩
    · obtain ⟨len, hend, hle, hnoZero, hstop⟩ := ih (i := i + 1) (by omega)
      have hshift : i + 1 + len = i + (len + 1) := by omega
      rw [hshift] at hend hstop
      refine ⟨len + 1, ?_, by omega, ?_, fun hlt => hstop (by omega)⟩
      · rw [segmentEnd, if_pos ⟨by omega, hz⟩, hend]
      · rw [inputRange_succ]
        exact List.not_mem_cons_of_ne_of_not_mem (Ne.symm hz) hnoZero

/-- R122: the loop emits the encoding of what it has yet to read, one segment a pass. -/
theorem encodeLoop_emitted {n i rest fuel : Nat} (bytes : List Byte) (hn : n = i + rest) (hfuel : rest < fuel) :
    encodeLoop s n fuel i (emitted obuf bytes) = emitted obuf (bytes ++ cobsEncode (s.inputRange i rest)) := by
  induction fuel generalizing i rest bytes with
  | zero => omega
  | succ fuel ih =>
    obtain ⟨len, hend, hle, hnoZero, hstop⟩ := segmentEnd_spec (s := s) hn
    have hlen : i + len - i = len := Nat.add_sub_cancel_left ..
    rw [encodeLoop, show n - i = rest by omega, hend]
    by_cases hlast : i + len = n
    · have hlenrest : len = rest := by omega
      rw [if_pos hlast, emitRange_emitted, hlen, ← hlenrest, cobsEncode_of_noZero hnoZero]
    · obtain ⟨rest', rfl⟩ := Nat.exists_eq_add_of_le (show len + 1 ≤ rest by omega)
      have hsplit : s.inputRange i (len + 1 + rest') = s.inputRange i len ++ 0 :: s.inputRange (i + len + 1) rest' := by
        rw [Nat.add_assoc, inputRange_add, Nat.add_comm 1, inputRange_succ, hstop (by omega)]
      rw [if_neg hlast, emitRange_emitted, hlen, ih (rest := rest') _ (by omega) (by omega), hsplit,
        cobsEncode_append_zero hnoZero, List.append_assoc]

/-- R122: the pseudocode, whole, stores the encoding of the operand. -/
theorem encodeWalk_eq_withResult (s : State) : encodeWalk s = (s.withResult (cobsEncode s.operand)).done := by
  have hloop := encodeLoop_emitted (s := s) (obuf := s.obuf) [] (Nat.zero_add s.ilen.toNat).symm (Nat.lt_succ_self _)
  rw [emitted_nil, ← operand_eq_inputRange, List.nil_append] at hloop
  simp only [encodeWalk, hloop]
  rfl

/-- Settles O24: both store the encoding of the operand. -/
theorem cobsEncRefinesItsPseudocode : Obligations.CobsEncRefinesItsPseudocode := by
  intro s hfits
  rw [exec_cobsEnc_fits hfits, encodeWalk_eq_withResult]
  rfl

end Sys2Proof.Machine
end

section
/-! The strip of the decoder (rules R140, R142): the zeros around a buffer do not matter to it, and a buffer without a zero
at either edge is kept as it stands. -/

namespace Sys2Proof.Machine

theorem dropWhile_zeros_replicate_append (a : Nat) (y : List Byte) :
    (List.replicate a 0 ++ y).dropWhile (· == 0) = y.dropWhile (· == 0) :=
  List.dropWhile_append_of_pos fun _ hb => beq_iff_eq.mpr (List.eq_of_mem_replicate hb)

theorem stripZeros_replicate_append (a : Nat) (y : List Byte) : stripZeros (List.replicate a 0 ++ y) = stripZeros y := by
  rw [stripZeros, dropWhile_zeros_replicate_append, stripZeros]

/-- R142: the second strip takes the trailing zeros away, unless the first one has taken the whole buffer. -/
theorem stripZeros_append_replicate (y : List Byte) (b : Nat) : stripZeros (y ++ List.replicate b 0) = stripZeros y := by
  by_cases hy : y.dropWhile (· == 0) = []
  · rw [stripZeros, List.dropWhile_append, hy, stripZeros, hy, List.isEmpty_nil, if_pos rfl,
      ← List.append_nil (List.replicate b 0), dropWhile_zeros_replicate_append, List.dropWhile_nil]
  · rw [stripZeros, List.dropWhile_append, if_neg (by simpa using hy), List.reverse_append, List.reverse_replicate,
      dropWhile_zeros_replicate_append, stripZeros]

/-- Settles O33: the decoder sees only the stripped buffer. -/
theorem decodeIgnoresFrameZeros : Obligations.DecodeIgnoresFrameZeros := by
  intro y a b
  rw [cobsDecode, stripZeros_append_replicate, stripZeros_replicate_append, cobsDecode]

theorem dropWhile_zeros_of_head {y : List Byte} (h : y.head? ≠ some 0) : y.dropWhile (· == 0) = y := by
  cases y with
  | nil => rfl
  | cons b bs => exact List.dropWhile_cons_of_neg fun hb => h (congrArg some (eq_of_beq hb))

/-- R140: a buffer with no zero at its edges is not changed by the strip. -/
theorem stripZeros_of_edges {y : List Byte} (hhead : y.head? ≠ some 0) (hlast : y.getLast? ≠ some 0) :
    stripZeros y = y := by
  have hrev : y.reverse.head? ≠ some 0 := by rwa [List.head?_reverse]
  rw [stripZeros, dropWhile_zeros_of_head hhead, dropWhile_zeros_of_head hrev, List.reverse_reverse]

end Sys2Proof.Machine
end

section
/-! COBS_DEC (rules R140, R141, R143): the part of the operand that the strip leaves, found as the pseudocode finds it, and
how the command ends. -/

namespace Sys2Proof.Machine

variable {s : State}

/-! ### What the strip leaves of the operand -/

/-- R141: `IBUF[a .. e)` is what the strip leaves of the operand. -/
structure PayloadAt (s : State) (a e : Nat) : Prop where
  le : a ≤ e
  le_ilen : e ≤ s.ilen.toNat
  leading : ∀ j, j < a → s.byteAt .ibuf j = 0
  trailing : ∀ j, e ≤ j → j < s.ilen.toNat → s.byteAt .ibuf j = 0
  first : a < e → s.byteAt .ibuf a ≠ 0
  last : a < e → s.byteAt .ibuf (e - 1) ≠ 0

/-- R141: the first loop passes over zeros, and stops at the end of the operand or at a byte that is not zero. -/
theorem skipLeading_spec {n fuel a : Nat} (hn : n = a + fuel) :
    a ≤ skipLeading s n fuel a ∧ skipLeading s n fuel a ≤ n ∧
      (∀ j, a ≤ j → j < skipLeading s n fuel a → s.byteAt .ibuf j = 0) ∧
      (skipLeading s n fuel a < n → s.byteAt .ibuf (skipLeading s n fuel a) ≠ 0) := by
  induction fuel generalizing a with
  | zero =>
    rw [skipLeading]
    exact ⟨le_rfl, hn.ge, fun j h1 h2 => absurd h1 h2.not_ge, fun h => absurd h hn.le.not_gt⟩
  | succ fuel ih =>
    rw [skipLeading]
    by_cases hz : s.byteAt .ibuf a = 0
    · obtain ⟨hge, hle, hzeros, hstop⟩ := ih (a := a + 1) (by omega)
      rw [if_pos ⟨by omega, hz⟩]
      refine ⟨by omega, hle, fun j hj hlt => ?_, hstop⟩
      rcases hj.eq_or_lt with rfl | hj
      · exact hz
      · exact hzeros j hj hlt
    · rw [if_neg fun h => hz h.2]
      exact ⟨le_rfl, by omega, fun j h1 h2 => absurd h1 h2.not_ge, fun _ => hz⟩

/-- R141: the second loop passes over zeros, and stops where the first one did or after a byte that is not zero. -/
theorem skipTrailing_spec {a e : Nat} (h : a ≤ e) :
    a ≤ skipTrailing s a e ∧ skipTrailing s a e ≤ e ∧
      (∀ j, skipTrailing s a e ≤ j → j < e → s.byteAt .ibuf j = 0) ∧
      (a < skipTrailing s a e → s.byteAt .ibuf (skipTrailing s a e - 1) ≠ 0) := by
  induction e with
  | zero =>
    rw [skipTrailing]
    exact ⟨h, le_rfl, nofun, nofun⟩
  | succ e ih =>
    rw [skipTrailing]
    by_cases hz : a < e + 1 ∧ s.byteAt .ibuf e = 0
    · obtain ⟨hge, hle, hzeros, hstop⟩ := ih (by omega)
      rw [if_pos hz]
      refine ⟨hge, by omega, fun j hj hlt => ?_, hstop⟩
      rcases (Nat.le_of_lt_succ hlt).eq_or_lt with rfl | hlt
      · exact hz.2
      · exact hzeros j hj hlt
    · rw [if_neg hz]
      exact ⟨h, le_rfl, fun j h1 h2 => absurd h1 h2.not_ge, fun hlt h0 => hz ⟨hlt, h0⟩⟩

/-- R141: the two loops find what the strip leaves. -/
theorem payloadAt_skip (s : State) :
    PayloadAt s (skipLeading s s.ilen.toNat s.ilen.toNat 0)
      (skipTrailing s (skipLeading s s.ilen.toNat s.ilen.toNat 0) s.ilen.toNat) := by
  obtain ⟨-, hle, hleading, hfirst⟩ := skipLeading_spec (s := s) (Nat.zero_add s.ilen.toNat).symm
  obtain ⟨hge, hle', htrailing, hlast⟩ := skipTrailing_spec (s := s) hle
  exact ⟨hge, hle', fun j => hleading j (Nat.zero_le j), htrailing, fun h => hfirst (h.trans_le hle'), hlast⟩

theorem inputRange_of_zeros {p count : Nat} (h : ∀ j, p ≤ j → j < p + count → s.byteAt .ibuf j = 0) :
    s.inputRange p count = List.replicate count 0 := by
  refine List.eq_replicate_iff.mpr ⟨inputRange_length .., fun b hb => ?_⟩
  obtain ⟨j, hj, rfl⟩ := List.mem_map.mp hb
  rw [List.mem_range'_1] at hj
  exact h j hj.1 hj.2

theorem mem_inputRange {b : Byte} {p count : Nat} :
    b ∈ s.inputRange p count ↔ ∃ j, p ≤ j ∧ j < p + count ∧ s.byteAt .ibuf j = b := by
  simp [State.inputRange, and_assoc]

variable {a e : Nat}

/-- R140: the operand is its payload between two runs of zeros. -/
theorem PayloadAt.operand_eq (h : PayloadAt s a e) :
    s.operand = List.replicate a 0 ++ s.inputRange a (e - a) ++ List.replicate (s.ilen.toNat - e) 0 := by
  have hle := h.le
  have hle' := h.le_ilen
  have hlen : s.ilen.toNat = a + (e - a) + (s.ilen.toNat - e) := by omega
  rw [operand_eq_inputRange, hlen, inputRange_add, inputRange_add, ← hlen, Nat.zero_add, Nat.zero_add,
    Nat.add_sub_cancel' hle, inputRange_of_zeros (count := a) fun j _ hj => h.leading j (by omega),
    inputRange_of_zeros (p := e) fun j hj hlt => h.trailing j hj (by omega)]

theorem PayloadAt.stripZeros_inputRange (h : PayloadAt s a e) :
    stripZeros (s.inputRange a (e - a)) = s.inputRange a (e - a) := by
  have hle := h.le
  rcases Nat.eq_zero_or_pos (e - a) with hempty | hpos
  · rw [hempty]; rfl
  · have hlast := h.last (by omega)
    refine stripZeros_of_edges ?_ ?_
    · rw [State.inputRange, List.head?_map, List.head?_range', if_neg hpos.ne']
      exact fun hz => h.first (by omega) (Option.some.inj hz)
    · rw [State.inputRange, List.getLast?_map, List.getLast?_range', if_neg hpos.ne']
      intro hz
      refine hlast ?_
      rw [← Option.some.inj hz]
      congr 1
      omega

/-- R140, R141: `cobs_decode` of the operand, said of its payload. -/
theorem PayloadAt.cobsDecode_operand (h : PayloadAt s a e) :
    cobsDecode s.operand = if (0 : Byte) ∈ s.inputRange a (e - a) then .error .malformedInput
      else .ok (walkBlocks (e - a) (s.inputRange a (e - a))) := by
  rw [h.operand_eq, decodeIgnoresFrameZeros, cobsDecode, h.stripZeros_inputRange, inputRange_length]
  simp only [List.contains_iff_mem]

theorem PayloadAt.malformed_iff (h : PayloadAt s a e) :
    cobsDecode s.operand = .error .malformedInput ↔ (0 : Byte) ∈ s.inputRange a (e - a) := by
  rw [h.cobsDecode_operand, ite_eq_left_iff]
  exact ⟨fun hok => Decidable.by_contra fun hz => (nomatch hok hz), fun hz hno => absurd hz hno⟩

theorem PayloadAt.zero_mem_iff (h : PayloadAt s a e) :
    (0 : Byte) ∈ s.inputRange a (e - a) ↔ ∃ q, a ≤ q ∧ q < e ∧ s.byteAt .ibuf q = 0 := by
  rw [mem_inputRange, Nat.add_sub_cancel' h.le]

/-- R143: an inner zero of the operand is a zero of its payload, whose first and last bytes are not zero. -/
theorem PayloadAt.zero_mem_iff_inner_zero (h : PayloadAt s a e) :
    (0 : Byte) ∈ s.inputRange a (e - a) ↔ ∃ u q v, u < q ∧ q < v ∧ v < s.ilen.toNat ∧
      s.byteAt .ibuf u ≠ 0 ∧ s.byteAt .ibuf q = 0 ∧ s.byteAt .ibuf v ≠ 0 := by
  have hle := h.le_ilen
  rw [h.zero_mem_iff]
  constructor
  · rintro ⟨q, haq, hqe, hq⟩
    have hfirst := h.first (by omega)
    have hlast := h.last (by omega)
    have hqa : q ≠ a := fun heq => hfirst (heq ▸ hq)
    have hql : q ≠ e - 1 := fun heq => hlast (heq ▸ hq)
    exact ⟨a, q, e - 1, by omega, by omega, by omega, hfirst, hq, hlast⟩
  · rintro ⟨u, q, v, huq, hqv, hv, hu, hq, hvz⟩
    have hau : a ≤ u := not_lt.mp fun hlt => hu (h.leading u hlt)
    have hve : v < e := not_le.mp fun hge => hvz (h.trailing v hge hv)
    exact ⟨q, by omega, by omega, hq⟩

/-- R143: the operands that do not decode. -/
theorem cobsDecode_operand_malformed_iff (s : State) :
    cobsDecode s.operand = .error .malformedInput ↔ ∃ u q v, u < q ∧ q < v ∧ v < s.ilen.toNat ∧
      s.byteAt .ibuf u ≠ 0 ∧ s.byteAt .ibuf q = 0 ∧ s.byteAt .ibuf v ≠ 0 := by
  rw [(payloadAt_skip s).malformed_iff, (payloadAt_skip s).zero_mem_iff_inner_zero]

/-! ### The two ends of the command -/

/-- Settles O22: the decoding is no longer than the operand, so it fits OBUF and OLEN. -/
theorem cobsDecStoresTheDecoding : Obligations.CobsDecStoresTheDecoding := by
  intro s out _ hfits hdec
  have hle : out.length ≤ s.operand.length := cobsDecode_length_le hdec
  have hout : out.length < 65536 := hle.trans_lt ((operand_length s).trans_lt s.ilen.isLt)
  exact ⟨_, exec_cobsDec_fits hfits hdec, delivered_succeeded .., delivered_resultIs .cobsDec s hout,
    delivered_sameOperand .., delivered_sameFeeder .., rfl, delivered_sameSurround ..⟩

/-- R218: what `raise` leaves after the start of the command. -/
theorem start_raise_failed (i : Instr) (k : ErrorKind) (s : State) : Failed i k s ((s.start (encode i)).raise i k) where
  cmd := rfl
  status := rfl
  olen := rfl
  obuf _ := rfl
  feeder := ⟨⟨rfl, fun _ => rfl⟩, rfl⟩
  operand := ⟨rfl, fun _ => rfl⟩
  elem := rfl
  surround := ⟨rfl, rfl, rfl, rfl⟩

theorem Succeeded.not_failed {i : Instr} {k : ErrorKind} {s t : State} (h : Succeeded i t) : ¬ Failed i k s t := by
  intro hf
  have hstatus := h.status.symm.trans hf.status
  cases hstatus

/-- R141: COBS_DEC of an operand that fits and does not decode. -/
theorem exec_cobsDec_error {k : ErrorKind} (h : s.ilen.toNat ≤ s.cfg.inMax) (herr : cobsDecode s.operand = .error k) :
    exec .cobsDec s = .next ((s.start (encode .cobsDec)).raise .cobsDec k) :=
  runCommand_fits (fun _ => h) (deliver_ok.mpr (.inl ⟨k, herr, rfl⟩))

theorem cobsDecode_error_kind {y : List Byte} {k : ErrorKind} (h : cobsDecode y = .error k) : k = .malformedInput := by
  unfold cobsDecode at h
  dsimp only at h
  split at h
  · exact (Except.error.inj h).symm
  · cases h

/-- R143: on an operand that fits, the command fails with MalformedInput exactly when `cobs_decode` does. -/
theorem cobsDec_endsWith_malformed_iff (h : s.ilen.toNat ≤ s.cfg.inMax) :
    EndsWith .cobsDec .malformedInput s ↔ cobsDecode s.operand = .error .malformedInput := by
  constructor
  · rintro ⟨t, hexec, hfailed⟩
    cases hdec : cobsDecode s.operand with
    | error k => rw [cobsDecode_error_kind hdec]
    | ok out =>
      rw [exec_cobsDec_fits h hdec, Host.Outcome.next.injEq] at hexec
      subst hexec
      exact absurd hfailed (delivered_succeeded .cobsDec out s).not_failed
  · exact fun herr => ⟨_, exec_cobsDec_error h herr, start_raise_failed ..⟩

/-- Settles O23: the command fails when its operand does not decode, and that is so when its payload holds a zero. -/
theorem cobsDecRejectsInnerZeros : Obligations.CobsDecRejectsInnerZeros := by
  intro s _ hfits
  rw [cobsDec_endsWith_malformed_iff hfits, cobsDecode_operand_malformed_iff]

end Sys2Proof.Machine
end

section
/-! The pseudocode of R141, run byte by byte, leaves what COBS_DEC leaves: its scan is the check of R140 on the payload, and
its walk emits what the walk of R140 gives, block by block. -/

namespace Sys2Proof.Machine

variable {s : State} {obuf : Mem} {a e : Nat}

theorem inputRange_take (s : State) (p a count : Nat) :
    (s.inputRange p count).take a = s.inputRange p (min a count) := by
  rcases le_total a count with h | h
  · obtain ⟨b, rfl⟩ := Nat.exists_eq_add_of_le h
    rw [inputRange_add, List.take_left' (inputRange_length ..), min_eq_left h]
  · rw [List.take_of_length_le (by simpa using h), min_eq_right h]

theorem inputRange_drop_min (s : State) (p a count : Nat) :
    (s.inputRange p count).drop a = s.inputRange (p + min a count) (count - min a count) := by
  rcases le_total a count with h | h
  · rw [inputRange_drop, min_eq_left h]
  · rw [List.drop_of_length_le (by simpa using h), min_eq_right h, Nat.sub_self, inputRange_zero]

theorem walkBlocks_zero (y : List Byte) : walkBlocks 0 y = [] := by
  cases y <;> rfl

/-- R141, R146: from `IBUF[p]` on the loop emits what the walk gives of the bytes it has yet to read. -/
theorem decodeLoop_emitted (fuel p : Nat) (bytes : List Byte) :
    decodeLoop s e fuel p (emitted obuf bytes) = emitted obuf (bytes ++ walkBlocks fuel (s.inputRange p (e - p))) := by
  induction fuel generalizing p bytes with
  | zero => rw [decodeLoop, walkBlocks_zero, List.append_nil]
  | succ fuel ih =>
    by_cases hp : p < e
    · obtain ⟨rest, rfl⟩ : ∃ rest, e = p + 1 + rest := Nat.exists_eq_add_of_le hp
      have hlen : p + 1 + rest - p = rest + 1 := by omega
      have hcount (c : Nat) : (if 1 < c then min (c - 1) rest else 0) = min (c - 1) rest := by
        split <;> omega
      have hmore (c : Nat) : s.inputRange (p + 1 + min (c - 1) rest) (rest - min (c - 1) rest) ≠ [] ↔
          p + 1 + min (c - 1) rest < p + 1 + rest := by
        rw [← List.length_pos_iff, inputRange_length]
        omega
      rw [hlen, inputRange_succ]
      simp only [decodeLoop, if_pos hp, walkBlocks, Nat.add_sub_cancel_left, hcount, copyBytes_emitted, inputRange_take,
        inputRange_drop_min, hmore]
      split
      · simp [emitByte_emitted, ih, Nat.add_sub_add_left]
      · simp [ih, Nat.add_sub_add_left]
    · rw [decodeLoop, if_neg hp, Nat.sub_eq_zero_of_le (not_lt.mp hp), inputRange_zero, walkBlocks, List.append_nil]

/-- R140, R141: the scan for a zero, from the start of the payload on. -/
theorem PayloadAt.scan_iff (h : PayloadAt s a e) :
    (List.range e).any (fun q => decide (a ≤ q) && s.byteAt .ibuf q == 0) = true ↔
      (0 : Byte) ∈ s.inputRange a (e - a) := by
  rw [h.zero_mem_iff]
  simp only [List.any_eq_true, List.mem_range, Bool.and_eq_true, decide_eq_true_eq, beq_iff_eq]
  exact exists_congr fun q => and_left_comm

/-- R141: the pseudocode, whole, stores the decoding of the operand or raises its error. -/
theorem deliver_eq_decodeWalk (h : s.ilen.toNat ≤ s.cfg.inMax) :
    deliver .cobsDec (cobsDecode s.operand) s = .ok (decodeWalk s) := by
  have hp := payloadAt_skip s
  have hfits : s.operand.length ≤ outMax s.cfg := ((operand_length s).trans_le h).trans (inMax_le_outMax _)
  unfold decodeWalk
  dsimp only
  generalize skipLeading s s.ilen.toNat s.ilen.toNat 0 = a at hp ⊢
  generalize skipTrailing s a s.ilen.toNat = e at hp ⊢
  have hdec := hp.cobsDecode_operand
  simp only [hp.scan_iff]
  by_cases hz : (0 : Byte) ∈ s.inputRange a (e - a)
  · rw [if_pos hz] at hdec ⊢
    exact deliver_ok.mpr (.inl ⟨_, hdec, rfl⟩)
  · rw [if_neg hz] at hdec ⊢
    rw [← emitted_nil, decodeLoop_emitted, List.nil_append]
    exact deliver_ok.mpr (.inr ⟨_, hdec, (cobsDecode_length_le hdec).trans hfits, rfl⟩)

/-- Settles O25: both deliver the decoding of the operand. -/
theorem cobsDecRefinesItsPseudocode : Obligations.CobsDecRefinesItsPseudocode := fun s hfits =>
  runCommand_fits (fun _ => hfits) (deliver_eq_decodeWalk (s := s.start 0x02) hfits)

end Sys2Proof.Machine
end

section
/-! How a command ends: the failing end is the one with ERR set (R97, R218), a command has one end, and one that loads no key
keeps KEY and KLEN (R31). -/

namespace Sys2Proof.Machine

variable {i : Instr} {s t : State}

/-- R211, R218: a command that leaves ERR set ended with an error kind of its row and changed nothing else. -/
theorem exec_failed_of_err (h : exec i s = .next t) (herr : t.status.err = true) : ∃ k ∈ kindsOf i, Failed i k s t := by
  rcases exec_cases h with ⟨k, hk, rfl⟩ | ⟨-, -, out, cur, -, -, rfl⟩ | ⟨-, -, -, -, rfl⟩ | ⟨-, rfl⟩ | ⟨-, -, -, rfl⟩
  · exact ⟨k, hk, start_raise_failed i k s⟩
  all_goals cases herr

theorem Failed.err_eq_true {k : ErrorKind} (h : Failed i k s t) : t.status.err = true := by
  rw [h.status]

theorem EndsWith.failed {k : ErrorKind} (hend : EndsWith i k s) (h : exec i s = .next t) : Failed i k s t := by
  obtain ⟨u, hu, hfailed⟩ := hend
  cases hu.symm.trans h
  exact hfailed

theorem exec_sameKey (hload : ¬ (i = .ksfSet ∨ i = .vigSetpw)) (h : exec i s = .next t) : SameKey s t :=
  have ⟨hset, hpw⟩ := not_or.mp hload
  have ⟨hkey, hklen⟩ := exec_key_klen hset hpw h
  ⟨hklen, byteAt_congr hkey (exec_sameSurround h).resets⟩

end Sys2Proof.Machine
end

section
/-! The feeder's commands: the key loads (rules R162, R180), the cursor resets (R164, R181), KSF_GET (R166, R167), and the
feeder's state machine over all commands, an illegal opcode and reset (R168). -/

namespace Sys2Proof.Machine

variable {i : Instr} {s t : State}

/-! ### The key loads -/

theorem keyMax_le_inMax_of_legal {p : Params} (h : p.legal = true) : p.keyMax ≤ p.inMax := by
  simp only [Params.legal, Bool.and_eq_true, decide_eq_true_eq] at h
  exact h.2

/-- R220: an empty operand fits IBUF, so the key load's own test is the first to fail. -/
theorem keyLoad_empty (hload : i = .ksfSet ∨ i = .vigSetpw) (h0 : s.ilen.toNat = 0) : EndsWith i .invalidArgument s := by
  refine ⟨_, (exec_keyLoad hload s).trans ?_, start_raise_failed ..⟩
  exact runCommand_fits (fun _ => h0.trans_le (Nat.zero_le _)) (setContent_ok.mpr (.inl ⟨h0, rfl⟩))

/-- R216: a key longer than KEY_MAX ends in LengthError, by the common start (a) when it does not fit IBUF either, else by
the key load's own test (b). -/
theorem keyLoad_tooLong (hload : i = .ksfSet ∨ i = .vigSetpw) (hk : s.cfg.keyMax < s.ilen.toNat) :
    EndsWith i .lengthError s := by
  refine ⟨_, (exec_keyLoad hload s).trans ?_, start_raise_failed ..⟩
  rcases lt_or_ge s.cfg.inMax s.ilen.toNat with hover | hfits
  · exact runCommand_oversize (readsIbuf_keyLoad hload) hover
  · exact runCommand_fits (fun _ => hfits) (setContent_ok.mpr (.inr (.inl ⟨Nat.ne_zero_of_lt hk, hk, rfl⟩)))

/-- R162, R180: a key that fits is stored. -/
theorem exec_keyLoad_fits (hload : i = .ksfSet ∨ i = .vigSetpw) (hlegal : s.cfg.legal = true) (hpos : 0 < s.ilen.toNat)
    (hk : s.ilen.toNat ≤ s.cfg.keyMax) : exec i s = .next ((s.start (encode i)).withKey s.operand).done :=
  (exec_keyLoad hload s).trans <| runCommand_fits (fun _ => hk.trans (keyMax_le_inMax_of_legal hlegal)) <|
    setContent_ok.mpr (.inr (.inr ⟨hpos.ne', hk, rfl⟩))

theorem withKey_operand_klen (s : State) : (s.withKey s.operand).klen = s.ilen := by
  simp

theorem withKey_operand_byteAt (s : State) (j : Nat) :
    (s.withKey s.operand).byteAt .key j = if j < s.ilen.toNat then s.byteAt .ibuf j else s.byteAt .key j := by
  rw [withKey_byteAt_key]
  simp only [operand_length]
  split
  · exact bytesOf_getElem ..
  · rfl

/-- R162, R180: the three ends of a key load. -/
theorem keyLoad_replacesTheKey (hload : i = .ksfSet ∨ i = .vigSetpw) (s : State) (hlegal : s.cfg.legal = true) :
    (s.cfg.keyMax < s.ilen.toNat → EndsWith i .lengthError s) ∧
    (s.ilen.toNat = 0 → EndsWith i .invalidArgument s) ∧
    (0 < s.ilen.toNat → s.ilen.toNat ≤ s.cfg.keyMax →
      ∃ t, exec i s = .next t ∧ Succeeded i t ∧ t.klen = s.ilen ∧ t.cur = 0 ∧
        (∀ j, t.byteAt .key j = if j < s.ilen.toNat then s.byteAt .ibuf j else s.byteAt .key j) ∧
        t.krdy = true ∧ SameOperand s t ∧ SameResult s t ∧ t.elem = s.elem ∧ SameSurround s t) := by
  refine ⟨keyLoad_tooLong hload, keyLoad_empty hload, fun hpos hk => ?_⟩
  have hexec := exec_keyLoad_fits hload hlegal hpos hk
  have hklen := withKey_operand_klen (s.start (encode i))
  have hready : s.ilen ≠ 0 := fun h => by simp [h] at hpos
  have hnobuf : producesBuffer i = false := by rcases hload with rfl | rfl <;> rfl
  exact ⟨_, hexec, ⟨rfl, rfl⟩, hklen, rfl, withKey_operand_byteAt (s.start (encode i)),
    (krdy_iff _).mpr (hklen.trans_ne hready), exec_sameOperand hexec, exec_sameResult hexec hnobuf, rfl,
    exec_sameSurround hexec⟩

/-- Settles O35: KSF_SET is one of the two key loads. -/
theorem ksfSetReplacesTheKey : Obligations.KsfSetReplacesTheKey :=
  keyLoad_replacesTheKey (.inl rfl)

/-! ### The cursor resets -/

/-- R164, R181: the two cursor resets are one rule, which reads no operand and has no failing end. -/
theorem exec_cursorReset (hi : i = .ksfRst ∨ i = .vigRstidx) (s : State) :
    exec i s = .next (s.start (encode i)).resetCursor.done := by
  rcases hi with rfl | rfl <;> rfl

/-- Settles O37: CUR is the one register that `resetCursor` writes. -/
theorem cursorResetsSetTheCursorToZero : Obligations.CursorResetsSetTheCursorToZero := fun _ s hi =>
  ⟨_, exec_cursorReset hi s, ⟨rfl, rfl⟩, rfl, ⟨rfl, fun _ => rfl⟩, ⟨rfl, fun _ => rfl⟩, ⟨rfl, fun _ => rfl⟩, rfl,
    ⟨rfl, rfl, rfl, rfl⟩⟩

/-! ### KSF_GET -/

/-- R166: the test for a key is KSF_GET's own, and no operand is read before it. -/
theorem ksfGet_uninitialized (hk : s.klen = 0) : EndsWith .ksfGet .notInitialized s :=
  ⟨_, runCommand_fits (i := .ksfGet) nofun (getElement_ok.mpr (.inl ⟨hk, rfl⟩)), start_raise_failed ..⟩

/-- R166: what KSF_GET leaves of the block when the feeder is ready. -/
def State.elementGiven (s : State) : State :=
  ((s.start (encode .ksfGet)).advanceCursor.withElem (s.byteAt .key s.cur.toNat)).done

/-- R166: on a ready feeder KSF_GET gives the byte of KEY at the cursor, which R28 keeps below KEY_MAX. -/
theorem exec_ksfGet_ready (hinv : BlockInv s) (hk : s.klen ≠ 0) : exec .ksfGet s = .next s.elementGiven :=
  runCommand_fits (i := .ksfGet) nofun (getElement_ok.mpr (.inr ⟨hk, hinv.cur_lt_keyMax hk, rfl⟩))

theorem elementGiven_cur (hinv : BlockInv s) (hk : s.klen ≠ 0) :
    s.elementGiven.cur.toNat = (s.cur.toNat + 1) % s.klen.toNat :=
  advanceCursor_toNat (s := s.start (encode .ksfGet)) (hinv.ready hk)

theorem elementGiven_sameKey (s : State) : SameKey s s.elementGiven :=
  ⟨rfl, fun _ => rfl⟩

/-- R166, R184: for a cursor below the length of the key, one place on round it is one place on with wrap to 0. -/
theorem succ_mod_eq_wrap {c k : Nat} (h : c < k) : (c + 1) % k = if c + 1 = k then 0 else c + 1 := by
  split
  · next heq => rw [heq, Nat.mod_self]
  · next hne => exact Nat.mod_eq_of_lt (by omega)

/-- Settles O38: the two ends of KSF_GET. -/
theorem ksfGetEmitsTheNextElement : Obligations.KsfGetEmitsTheNextElement := fun s hinv =>
  ⟨ksfGet_uninitialized, fun hk =>
    ⟨_, exec_ksfGet_ready hinv hk, ⟨rfl, rfl⟩, rfl, (elementGiven_cur hinv hk).trans (succ_mod_eq_wrap (hinv.ready hk)),
      elementGiven_sameKey s, ⟨rfl, fun _ => rfl⟩, ⟨rfl, fun _ => rfl⟩, ⟨rfl, rfl, rfl, rfl⟩⟩⟩

theorem runCommands_cons (is : List Instr) (h : exec i s = .next t) : runCommands (i :: is) s = runCommands is t := by
  rw [runCommands, h]

/-- Settles O39, by induction on `j`: the first command moves the cursor on by one round the key, and the other `j` run from
there. -/
theorem ksfGetRunsRoundTheKey : Obligations.KsfGetRunsRoundTheKey := by
  intro s j hinv hk
  induction j generalizing s with
  | zero =>
    refine ⟨_, runCommands_cons [] (exec_ksfGet_ready hinv hk), ?_, elementGiven_cur hinv hk, elementGiven_sameKey s⟩
    rw [Nat.add_zero, Nat.mod_eq_of_lt (hinv.ready hk)]
    rfl
  | succ j ih =>
    have hexec := exec_ksfGet_ready hinv hk
    have hcur := elementGiven_cur hinv hk
    have hfirst := elementGiven_sameKey s
    obtain ⟨t, hrun, helem, hlast, hkey⟩ := ih s.elementGiven (hinv.of_exec hexec) hk
    refine ⟨t, (runCommands_cons _ hexec).trans hrun, ?_, ?_, hkey.klen, hkey.key⟩
    · rw [helem, hfirst.key, hfirst.klen, hcur, Nat.mod_add_mod, Nat.add_right_comm, Nat.add_assoc]
    · rw [hlast, hfirst.klen, hcur, Nat.add_assoc, Nat.mod_add_mod, Nat.add_right_comm, ← Nat.add_assoc]

/-! ### The rows of the feeder's state machine -/

/-- R168, the row of a key load that succeeded. -/
theorem keyLoad_succeeded (hload : i = .ksfSet ∨ i = .vigSetpw) (hlegal : s.cfg.legal = true) (h : exec i s = .next t)
    (hok : t.status.err = false) :
    t.klen ≠ 0 ∧ t.klen = s.ilen ∧ (∀ j, j < s.ilen.toNat → t.byteAt .key j = s.byteAt .ibuf j) ∧ t.cur = 0 := by
  obtain ⟨hlong, hempty, hfits⟩ := keyLoad_replacesTheKey hload s hlegal
  have hnofail : ∀ k, ¬ EndsWith i k s := fun k hend =>
    Bool.false_ne_true (hok.symm.trans (hend.failed h).err_eq_true)
  have hpos : 0 < s.ilen.toNat := Nat.pos_of_ne_zero fun h0 => hnofail _ (hempty h0)
  have hk : s.ilen.toNat ≤ s.cfg.keyMax := not_lt.mp fun hlt => hnofail _ (hlong hlt)
  obtain ⟨u, hu, -, hklen, hcur, hkey, hready, -⟩ := hfits hpos hk
  cases hu.symm.trans h
  exact ⟨(krdy_iff t).mp hready, hklen, fun j hj => (hkey j).trans (if_pos hj), hcur⟩

/-- R182, R183: VIG_ENC and VIG_DEC are one rule, over the way a byte and its keystream byte combine. -/
theorem exec_vigenere (hvig : i = .vigEnc ∨ i = .vigDec) : ∃ f, ∀ s, exec i s = runCommand i (vigenere i f) s := by
  rcases hvig with rfl | rfl
  · exact ⟨_, exec_vigEnc⟩
  · exact ⟨_, exec_vigDec⟩

/-- R168, R220: the row of VIG_ENC and VIG_DEC on an uninitialized feeder. -/
theorem vigenere_uninitialized (hvig : i = .vigEnc ∨ i = .vigDec) (hk : s.klen = 0) (hfits : s.ilen.toNat ≤ s.cfg.inMax) :
    EndsWith i .notInitialized s := by
  obtain ⟨f, hexec⟩ := exec_vigenere hvig
  exact ⟨_, (hexec s).trans (runCommand_fits (fun _ => hfits) (if_pos hk)), start_raise_failed ..⟩

/-- R168, R185: the row of VIG_ENC and VIG_DEC that succeeded: the cursor moved on by one for each byte, round the key. -/
theorem vigenere_succeeded_cur (hvig : i = .vigEnc ∨ i = .vigDec) (hinv : BlockInv s) (h : exec i s = .next t)
    (hok : t.status.err = false) : t.cur.toNat = (s.cur.toNat + s.ilen.toNat) % s.klen.toNat := by
  obtain ⟨f, hexec⟩ := exec_vigenere hvig
  rw [hexec] at h
  rcases runCommand_next.mp h with ⟨-, -, rfl⟩ | ⟨-, hbody⟩
  · cases hok
  · rcases vigenere_ok hbody with ⟨-, rfl⟩ | ⟨hk, out, cur, -, -, hscr, rfl⟩
    · cases hok
    · have hcur := scramble_cursor hscr (hinv.ready hk)
      rwa [operand_length] at hcur

/-- R128, R150, R200: the row of the COBS and XOR commands. -/
theorem cobsXor_sameFeeder (hi : i = .cobsEnc ∨ i = .cobsDec ∨ i = .xorEnc ∨ i = .xorDec) (h : exec i s = .next t) :
    SameFeeder s t where
  toSameKey := exec_sameKey (by rcases hi with rfl | rfl | rfl | rfl <;> decide) h
  cur := exec_cur h hi

/-- R168: the row of a failed command of any kind. -/
theorem exec_err_sameFeeder (h : exec i s = .next t) (herr : t.status.err = true) : SameFeeder s t :=
  have ⟨_, _, hfailed⟩ := exec_failed_of_err h herr
  hfailed.feeder

/-- Settles O40, one lemma a row of R168's table. -/
theorem feederLifeCycleIsAsTabled : Obligations.FeederLifeCycleIsAsTabled := by
  refine ⟨fun i s t hinv h => ⟨fun hload => keyLoad_succeeded hload hinv.legal h, fun _ => exec_err_sameFeeder h,
    ?cursorReset, ?ksfGetUninitialized, ?ksfGetReady, ?vigenereUninitialized, fun _ => exec_err_sameFeeder h,
    ?vigenereSucceeded, fun hi => cobsXor_sameFeeder hi h⟩, ?illegalOpcode, fun s rest hin => ⟨_, step_cons hin, rfl, rfl⟩⟩
  case cursorReset =>
    intro hreset
    cases (exec_cursorReset hreset s).symm.trans h
    exact ⟨⟨rfl, fun _ => rfl⟩, rfl⟩
  case ksfGetUninitialized =>
    rintro rfl hk
    have hfailed := (ksfGet_uninitialized hk).failed h
    exact ⟨congrArg Status.ecode hfailed.status, hfailed.feeder⟩
  case ksfGetReady =>
    rintro rfl hk
    cases (exec_ksfGet_ready hinv hk).symm.trans h
    exact ⟨elementGiven_sameKey s, elementGiven_cur hinv hk⟩
  case vigenereUninitialized =>
    intro hvig hk hfits
    have hfailed := (vigenere_uninitialized hvig hk hfits).failed h
    exact congrArg Status.ecode hfailed.status
  case vigenereSucceeded =>
    intro hvig hok
    have hload : ¬ (i = .ksfSet ∨ i = .vigSetpw) := by rcases hvig with rfl | rfl <;> decide
    exact ⟨exec_sameKey hload h, vigenere_succeeded_cur hvig hinv h hok⟩
  case illegalOpcode =>
    intro s v rest why hin hv hb hd
    exact ⟨_, unassignedOpcodeEndsWithIllegalCommand s v rest why hin hv hb hd, ⟨rfl, fun _ => rfl⟩, rfl⟩

end Sys2Proof.Machine
end

section
/-! The Vigenère commands: VIG_SETPW is a key load (rule R180); VIG_ENC and VIG_DEC are one rule over the way a byte and its
keystream byte combine (R182, R183), which says what such a command leaves once (R185); from it follow that the commands stream
(R186) and that each undoes the other (R187). -/

namespace Sys2Proof.Machine

variable {i : Instr} {f g : Byte → Byte → Byte} {s t : State}

/-- Settles O36: VIG_SETPW is the other of the two key loads. -/
theorem vigSetpwReplacesThePassword : Obligations.VigSetpwReplacesThePassword :=
  keyLoad_replacesTheKey (.inr rfl)

/-! ### The keystream -/

/-- R185: `key[(c + j) mod K]`, the keystream byte `j` places on from the cursor. -/
def State.keystreamByte (s : State) (j : Nat) : Byte := s.byteAt .key ((s.cur.toNat + j) % s.klen.toNat)

/-- R185: the bytes `bs`, each combined with its keystream byte. -/
def State.scrambled (f : Byte → Byte → Byte) (s : State) (bs : List Byte) : List Byte :=
  bs.mapIdx fun j b => f b (s.keystreamByte j)

@[simp] theorem scrambled_length (f : Byte → Byte → Byte) (s : State) (bs : List Byte) :
    (s.scrambled f bs).length = bs.length :=
  List.length_mapIdx

theorem scrambled_getElem (f : Byte → Byte → Byte) (s : State) (bs : List Byte) {j : Nat}
    (h : j < (s.scrambled f bs).length) :
    (s.scrambled f bs)[j] = f (bs[j]'(h.trans_eq (scrambled_length f s bs))) (s.keystreamByte j) :=
  List.getElem_mapIdx

/-- The keystream depends on the feeder alone. -/
theorem scrambled_congr (h : SameFeeder s t) (f : Byte → Byte → Byte) (bs : List Byte) :
    t.scrambled f bs = s.scrambled f bs := by
  simp only [State.scrambled, State.keystreamByte, h.klen, h.key, h.cur]

/-- R186: a feeder whose cursor has moved on past `n` bytes gives the keystream from there. -/
theorem keystreamByte_add {n : Nat} (hkey : SameKey s t) (hcur : t.cur.toNat = (s.cur.toNat + n) % s.klen.toNat) (j : Nat) :
    t.keystreamByte j = s.keystreamByte (j + n) := by
  rw [State.keystreamByte, State.keystreamByte, hkey.key, hkey.klen, hcur, Nat.mod_add_mod, Nat.add_assoc, Nat.add_comm n]

/-- R186: `u ++ v` is scrambled as `u` is, then `v` from where `u` left the cursor. -/
theorem scrambled_append (f : Byte → Byte → Byte) {u : List Byte} (v : List Byte) (hkey : SameKey s t)
    (hcur : t.cur.toNat = (s.cur.toNat + u.length) % s.klen.toNat) :
    s.scrambled f (u ++ v) = s.scrambled f u ++ t.scrambled f v := by
  simp only [State.scrambled, List.mapIdx_append, keystreamByte_add hkey hcur]

/-- R187: two combinations that undo each other byte by byte do so along the keystream. -/
theorem scrambled_scrambled (h : ∀ b k, g (f b k) k = b) (s : State) (bs : List Byte) :
    s.scrambled g (s.scrambled f bs) = bs := by
  refine List.ext_getElem (by simp) fun j _ _ => ?_
  rw [scrambled_getElem, scrambled_getElem, h]

/-! ### One command -/

/-- What a Vigenère command that combines by `f` leaves, from `s`, when it succeeds: R185's bytes and cursor, and nothing else
changed. -/
structure Scrambles (i : Instr) (f : Byte → Byte → Byte) (s t : State) : Prop where
  succeeded : Succeeded i t
  result    : ResultIs (s.scrambled f s.operand) s t
  cur       : t.cur.toNat = (s.cur.toNat + s.ilen.toNat) % s.klen.toNat
  key       : SameKey s t
  operand   : SameOperand s t
  elem      : t.elem = s.elem
  surround  : SameSurround s t

/-- R182, R183: the loop on a ready feeder, as one function of the operand. -/
theorem scramble_eq_scrambled (f : Byte → Byte → Byte) (bs : List Byte) (hinv : BlockInv s) (hk : s.klen ≠ 0) :
    ∃ c : Word, scramble f bs s = .ok (s.scrambled f bs, s.withCursor c) ∧
      c.toNat = (s.cur.toNat + bs.length) % s.klen.toNat := by
  obtain ⟨out, t, hscr, hlen, ht, hbytes, hcur⟩ := scramble_ready f bs (hinv.ready hk) hinv.klen
  have hout : out = s.scrambled f bs := by
    refine List.ext_getElem (by simp [hlen]) fun j hj _ => ?_
    rw [scrambled_getElem, List.getElem_eq_iff]
    exact hbytes j (hlen ▸ hj)
  exact ⟨t.cur, by rw [hscr, hout, ← ht], hcur⟩

theorem vigenere_of_scramble (i : Instr) {out : List Byte} (hk : s.klen ≠ 0) (h : scramble f s.operand s = .ok (out, t)) :
    vigenere i f s = deliver i (.ok out) t := by
  rw [vigenere, if_neg hk, h]

/-- R185: a Vigenère command on a ready feeder, with an operand that fits. -/
theorem exec_scrambles (hexec : ∀ s, exec i s = runCommand i (vigenere i f) s) (hinv : BlockInv s) (hk : s.klen ≠ 0)
    (hfits : s.ilen.toNat ≤ s.cfg.inMax) : ∃ t, exec i s = .next t ∧ Scrambles i f s t := by
  obtain ⟨c, hscr, hcur⟩ := scramble_eq_scrambled f s.operand (hinv.start (encode i)) hk
  have hlen : (s.scrambled f s.operand).length = s.ilen.toNat := by simp
  have hrun : exec i s = .next ((s.withCursor c).delivered i (s.scrambled f s.operand)) := by
    refine (hexec s).trans (runCommand_fits (fun _ => hfits) ?_)
    refine (vigenere_of_scramble (s := s.start (encode i)) i hk hscr).trans ?_
    exact deliver_ok.mpr (.inr ⟨_, rfl, hlen.trans_le (hfits.trans (inMax_le_outMax _)), rfl⟩)
  obtain ⟨holen, hbytes, hrest⟩ := delivered_resultIs i (s.withCursor c) (hlen.trans_lt s.ilen.isLt)
  rw [operand_length] at hcur
  exact ⟨_, hrun, delivered_succeeded .., ⟨holen, hbytes, hrest⟩, hcur, ⟨rfl, fun _ => rfl⟩, ⟨rfl, fun _ => rfl⟩, rfl,
    ⟨rfl, rfl, rfl, rfl⟩⟩

theorem Scrambles.byteAt_obuf (h : Scrambles i f s t) {j : Nat} (hj : j < s.ilen.toNat) :
    t.byteAt .obuf j = f (s.byteAt .ibuf j) (s.keystreamByte j) := by
  rw [h.result.bytes j (by simpa using hj), scrambled_getElem]
  exact congrArg (f · _) (bytesOf_getElem ..)

theorem Scrambles.olen (h : Scrambles i f s t) : t.olen = s.ilen :=
  BitVec.eq_of_toNat_eq (h.result.olen.trans (by simp))

theorem Scrambles.byteAt_obuf_rest (h : Scrambles i f s t) {j : Nat} (hj : s.ilen.toNat ≤ j) :
    t.byteAt .obuf j = s.byteAt .obuf j :=
  h.result.rest j (by simpa using hj)

/-- The bytes that the host reads back after a command with result `out`. -/
theorem ResultIs.result_eq {out : List Byte} (h : ResultIs out s t) : t.result = out := by
  refine List.ext_getElem ((result_length t).trans h.olen) fun j _ hj => ?_
  exact (bytesOf_getElem ..).trans (h.bytes j hj)

/-- R216: the common start's length test comes before the test for a key. -/
theorem vigenere_tooLong (hvig : i = .vigEnc ∨ i = .vigDec) (hover : s.cfg.inMax < s.ilen.toNat) :
    EndsWith i .lengthError s := by
  obtain ⟨f, hexec⟩ := exec_vigenere hvig
  have hreads : readsIbuf i = true := by rcases hvig with rfl | rfl <;> rfl
  exact ⟨_, (hexec s).trans (runCommand_oversize hreads hover), start_raise_failed ..⟩

/-- R182, R183, R185: the three ends of a Vigenère command; `P` is what is to be said of each byte combined. -/
theorem vigenere_ends (hvig : i = .vigEnc ∨ i = .vigDec) (hexec : ∀ s, exec i s = runCommand i (vigenere i f) s)
    {P : Byte → Byte → Byte → Prop} (hP : ∀ b k, P b k (f b k)) (s : State) (hinv : BlockInv s) :
    (s.cfg.inMax < s.ilen.toNat → EndsWith i .lengthError s) ∧
    (s.ilen.toNat ≤ s.cfg.inMax → s.klen = 0 → EndsWith i .notInitialized s) ∧
    (s.ilen.toNat ≤ s.cfg.inMax → s.klen ≠ 0 →
      ∃ t, exec i s = .next t ∧ Succeeded i t ∧ t.olen = s.ilen ∧
        (∀ j, j < s.ilen.toNat → P (s.byteAt .ibuf j) (s.keystreamByte j) (t.byteAt .obuf j)) ∧
        (∀ j, s.ilen.toNat ≤ j → t.byteAt .obuf j = s.byteAt .obuf j) ∧
        t.cur.toNat = (s.cur.toNat + s.ilen.toNat) % s.klen.toNat ∧
        SameKey s t ∧ SameOperand s t ∧ t.elem = s.elem ∧ SameSurround s t) := by
  refine ⟨vigenere_tooLong hvig, fun hfits hk => vigenere_uninitialized hvig hk hfits, fun hfits hk => ?_⟩
  obtain ⟨t, hrun, h⟩ := exec_scrambles hexec hinv hk hfits
  exact ⟨t, hrun, h.succeeded, h.olen, fun _ hj => h.byteAt_obuf hj ▸ hP .., fun _ => h.byteAt_obuf_rest, h.cur, h.key,
    h.operand, h.elem, h.surround⟩

/-- Settles O42: the sum of two machine bytes is their sum mod 256. -/
theorem vigEncAddsTheKeystream : Obligations.VigEncAddsTheKeystream :=
  vigenere_ends (P := fun b k r => r.toNat = (b.toNat + k.toNat) % 256) (.inl rfl) exec_vigEnc BitVec.toNat_add

/-- R10: the difference of two bytes is the remainder in `0 .. 255` of their difference as integers. -/
theorem byte_sub_toNat (b k : Byte) : ((b - k).toNat : Int) = ((b.toNat : Int) - (k.toNat : Int)) % 256 := by
  rw [BitVec.toNat_sub]
  omega

/-- Settles O43: the difference of two machine bytes is the remainder that R10 names. -/
theorem vigDecSubtractsTheKeystream : Obligations.VigDecSubtractsTheKeystream :=
  vigenere_ends (P := fun b k r => (r.toNat : Int) = ((b.toNat : Int) - (k.toNat : Int)) % 256) (.inr rfl) exec_vigDec
    byte_sub_toNat

/-! ### Commands one after the other -/

/-- R109: an operand that fits IBUF may be loaded in any state that meets the invariant. -/
theorem BlockInv.load (h : BlockInv s) {bs : List Byte} (hlen : bs.length ≤ s.cfg.inMax) : BlockInv (s.load bs) :=
  { h with
    ibufWf := store_wf 0 bs h.ibufWf
    ibufIn := store_within 0 bs h.ibufIn ((Nat.zero_add _).trans_le hlen) }

/-- R109, R185: a Vigenère command on a loaded operand: the bytes the host reads back, and the cursor. -/
theorem exec_load_scrambled (hexec : ∀ s, exec i s = runCommand i (vigenere i f) s) (hinv : BlockInv s) (hk : s.klen ≠ 0)
    {bs : List Byte} (hlen : bs.length ≤ s.cfg.inMax) :
    ∃ t, exec i (s.load bs) = .next t ∧ Succeeded i t ∧ t.result = s.scrambled f bs ∧
      t.cur.toNat = (s.cur.toNat + bs.length) % s.klen.toNat ∧ SameKey s t ∧ t.cfg = s.cfg ∧ BlockInv t := by
  have hword : bs.length < 65536 := hlen.trans_lt (inMax_lt_of_legal hinv.legal)
  have hop : (s.load bs).operand = bs := load_operand hword
  have hilen : (s.load bs).ilen.toNat = bs.length := Nat.mod_eq_of_lt hword
  obtain ⟨t, hrun, h⟩ := exec_scrambles hexec (hinv.load hlen) hk (hilen.trans_le hlen)
  refine ⟨t, hrun, h.succeeded, ?result, ?cur, ⟨h.key.klen, h.key.key⟩, h.surround.cfg, (hinv.load hlen).of_exec hrun⟩
  case result =>
    rw [h.result.result_eq, hop]
    exact scrambled_congr ⟨⟨rfl, fun _ => rfl⟩, rfl⟩ f bs
  case cur =>
    rw [h.cur, hilen]
    rfl

/-- Settles O44: the second command starts where the first left the cursor. -/
theorem vigenereStreamsAcrossCommands : Obligations.VigenereStreamsAcrossCommands := by
  intro i s u v hvig hinv hk hlen
  obtain ⟨f, hexec⟩ := exec_vigenere hvig
  have hsum : u.length + v.length ≤ s.cfg.inMax := List.length_append ▸ hlen
  obtain ⟨t1, hrun1, -, hres1, hcur1, hkey1, hcfg1, hinv1⟩ := exec_load_scrambled hexec hinv hk (bs := u) (by omega)
  have hk1 : t1.klen ≠ 0 := hkey1.klen.trans_ne hk
  obtain ⟨t2, hrun2, -, hres2, hcur2, -⟩ := exec_load_scrambled hexec hinv1 hk1 (bs := v) (by rw [hcfg1]; omega)
  obtain ⟨t, hrun, -, hres, hcur, -⟩ := exec_load_scrambled hexec hinv hk hlen
  refine ⟨t1, t2, t, hrun1, hrun2, hrun, ?bytes, BitVec.eq_of_toNat_eq ?cursor⟩
  case bytes => rw [hres, hres1, hres2, scrambled_append f v hkey1 hcur1]
  case cursor => rw [hcur, hcur2, hcur1, hkey1.klen, Nat.mod_add_mod, Nat.add_assoc, List.length_append]

/-- R187: two Vigenère commands whose combinations undo each other, the second on the result of the first and from the cursor
where the first started. -/
theorem vigenere_roundTrip {j : Instr} (hi : ∀ s, exec i s = runCommand i (vigenere i f) s)
    (hj : ∀ s, exec j s = runCommand j (vigenere j g) s) (hundo : ∀ b k, g (f b k) k = b) (hinv : BlockInv s)
    (hk : s.klen ≠ 0) (hfits : s.ilen.toNat ≤ s.cfg.inMax) :
    ∃ t u, exec i s = .next t ∧ exec j { t.feedback with cur := s.cur } = .next u ∧ Succeeded j u ∧
      u.result = s.operand := by
  obtain ⟨t, hrun, h⟩ := exec_scrambles hi hinv hk hfits
  have hresult : t.result = s.scrambled f s.operand := h.result.result_eq
  have hlen : t.result.length ≤ t.cfg.inMax := by
    rw [hresult, h.surround.cfg]
    simpa using hfits
  have hklen : t.klen = s.klen := h.key.klen
  have hback : BlockInv (t.withCursor s.cur) :=
    (hinv.of_exec hrun).withCursor (hklen ▸ hinv.uninit) (hklen ▸ hinv.ready)
  obtain ⟨u, hrun2, hok, hres, -⟩ := exec_load_scrambled hj hback (hklen.trans_ne hk) hlen
  refine ⟨t, u, hrun, hrun2, hok, ?_⟩
  have hfeeder : SameFeeder s (t.withCursor s.cur) := ⟨⟨hklen, h.key.key⟩, rfl⟩
  calc u.result
    _ = s.scrambled g (s.scrambled f s.operand) := by rw [hres, scrambled_congr hfeeder, hresult]
    _ = s.operand := scrambled_scrambled hundo s s.operand

/-- Settles O45: adding a byte and subtracting it undo each other, in either order. -/
theorem vigenereCommandsRoundTrip : Obligations.VigenereCommandsRoundTrip := by
  intro i j s hij hinv hk hfits
  rcases hij with ⟨rfl, rfl⟩ | ⟨rfl, rfl⟩
  · exact vigenere_roundTrip exec_vigEnc exec_vigDec BitVec.add_sub_cancel hinv hk hfits
  · exact vigenere_roundTrip exec_vigDec exec_vigEnc BitVec.sub_add_cancel hinv hk hfits

end Sys2Proof.Machine
end

section
/-! The XOR commands: both deliver the mask of their operand (rules R200, R201, R204), and the mask undoes itself (R203). -/

namespace Sys2Proof.Machine

variable {i : Instr} {s : State}

/-! ### The mask -/

@[simp] theorem xorMask_length (x : List Byte) : (xorMask x).length = x.length :=
  List.length_map ..

/-- R203: a byte masked twice is the byte. -/
theorem xorMask_xorMask (x : List Byte) : xorMask (xorMask x) = x := by
  rw [xorMask, xorMask, List.map_map]
  exact List.map_id'' (fun b => by rw [Function.comp_apply, BitVec.xor_assoc, BitVec.xor_self, BitVec.xor_zero]) x

theorem xorMask_operand_length (s : State) : (xorMask s.operand).length = s.ilen.toNat := by simp

theorem xorMask_operand_length_lt (s : State) : (xorMask s.operand).length < 65536 :=
  (xorMask_operand_length s).trans_lt s.ilen.isLt

theorem xorMask_operand_getElem (s : State) {k : Nat} (h : k < (xorMask s.operand).length) :
    (xorMask s.operand)[k] = s.byteAt .ibuf k ^^^ 255 :=
  (List.getElem_map ..).trans (congrArg (· ^^^ 255) (bytesOf_getElem ..))

/-! ### One command -/

/-- R200, R201: the two commands have one rule. -/
theorem exec_xor (hxor : i = .xorEnc ∨ i = .xorDec) (s : State) :
    exec i s = runCommand i (fun u => deliver i (.ok (xorMask u.operand)) u) s := by
  rcases hxor with rfl | rfl
  · exact exec_xorEnc s
  · exact exec_xorDec s

/-- R216: an XOR command on an operand that does not fit. -/
theorem xor_tooLong (hxor : i = .xorEnc ∨ i = .xorDec) (hover : s.cfg.inMax < s.ilen.toNat) : EndsWith i .lengthError s := by
  have hreads : readsIbuf i = true := by rcases hxor with rfl | rfl <;> rfl
  exact ⟨_, (exec_xor hxor s).trans (runCommand_oversize hreads hover), start_raise_failed ..⟩

/-- R200, R201: an XOR command on an operand that fits. -/
theorem exec_xor_fits (hxor : i = .xorEnc ∨ i = .xorDec) (hfits : s.ilen.toNat ≤ s.cfg.inMax) :
    exec i s = .next (s.delivered i (xorMask s.operand)) :=
  (exec_xor hxor s).trans <|
    runCommand_deliver i (fun x => .ok (xorMask x)) hfits rfl (xorMask_fits ((operand_length s).trans_le hfits))

theorem delivered_xorMask_olen (i : Instr) (s : State) : (s.delivered i (xorMask s.operand)).olen = s.ilen :=
  BitVec.eq_of_toNat_eq <|
    (delivered_resultIs i s (xorMask_operand_length_lt s)).olen.trans (xorMask_operand_length s)

/-- Settles O46: the result is the mask of the operand, and a command that delivers a result writes OBUF and OLEN alone. -/
theorem xorCommandsMaskEveryByte : Obligations.XorCommandsMaskEveryByte := by
  intro i s hxor
  refine ⟨xor_tooLong hxor, fun hfits => ?_⟩
  have hlen := xorMask_operand_length s
  obtain ⟨-, hbytes, hrest⟩ := delivered_resultIs i s (xorMask_operand_length_lt s)
  refine ⟨_, exec_xor_fits hxor hfits, delivered_succeeded .., delivered_xorMask_olen i s, fun k hk => ?masked,
    fun k hk => hrest k (hlen.trans_le hk), delivered_sameOperand .., delivered_sameFeeder .., rfl,
    delivered_sameSurround ..⟩
  case masked =>
    have hk' : k < (xorMask s.operand).length := hk.trans_eq hlen.symm
    exact (hbytes k hk').trans (xorMask_operand_getElem s hk')

/-! ### Two commands in a row -/

/-- R109: the result fed back is the operand of the next command. -/
theorem feedback_operand {t : State} {out : List Byte} (h : t.result = out) (hlen : out.length < 65536) :
    t.feedback.operand = out := by
  rw [State.feedback, h]
  exact load_operand hlen

/-- Settles O47: the second command masks the mask of the operand. -/
theorem xorCommandsAreAnInvolution : Obligations.XorCommandsAreAnInvolution := by
  intro i j s hi hj hfits
  have hlt := xorMask_operand_length_lt s
  have hop : (s.delivered i (xorMask s.operand)).feedback.operand = xorMask s.operand :=
    feedback_operand (delivered_result i s hlt) hlt
  have hilen : (s.delivered i (xorMask s.operand)).feedback.ilen.toNat = s.ilen.toNat := by
    rw [← operand_length, hop, xorMask_operand_length]
  refine ⟨_, _, exec_xor_fits hi hfits, delivered_xorMask_olen i s, exec_xor_fits hj (hilen.trans_le hfits),
    delivered_succeeded .., ?_⟩
  rw [delivered_result j _ (xorMask_operand_length_lt _), hop, xorMask_xorMask]

end Sys2Proof.Machine
end

section
/-! Exceptions: which kinds a command can end with (rules R211, R216), that a failing end is precise (R218), and that a failed
command fails again (R223). -/

namespace Sys2Proof.Machine

variable {i : Instr} {k : ErrorKind} {s t : State}

/-! ### A failing end and its kind -/

/-- Settles O16: what `raise` leaves, for the kind of the command's row. -/
theorem errorsArePrecise : Obligations.ErrorsArePrecise := fun _ _ _ h herr =>
  have ⟨k, _, hfailed⟩ := exec_failed_of_err h herr
  ⟨k, hfailed⟩

/-- R210, R218: ECODE alone tells how a command ended, since no kind has code 0 and no two share a code. -/
theorem failed_of_ecode (h : exec i s = .next t) (hcode : t.status.ecode = k.code) : k ∈ kindsOf i ∧ Failed i k s t := by
  obtain ⟨-, -, -, hzero⟩ := everyCommandEndsDoneOrInError i s t h
  have herr : t.status.err = true := by
    rw [← Bool.not_eq_false, ← hzero, hcode]
    exact code_ne_zero k
  obtain ⟨j, hj, hfailed⟩ := exec_failed_of_err h herr
  have hjk : j = k := code_injective (by rw [← hcode, hfailed.status])
  exact hjk ▸ ⟨hj, hfailed⟩

/-! ### LengthError -/

/-- R96: every command is the common start and then its own rule. -/
theorem exec_eq_runCommand : ∀ i : Instr, ∃ body, exec i = runCommand i body
  | .cobsEnc => ⟨_, funext exec_cobsEnc⟩
  | .cobsDec => ⟨_, funext exec_cobsDec⟩
  | .ksfSet => ⟨_, funext exec_ksfSet⟩
  | .ksfRst => ⟨_, funext exec_ksfRst⟩
  | .ksfGet => ⟨_, funext exec_ksfGet⟩
  | .vigSetpw => ⟨_, funext exec_vigSetpw⟩
  | .vigRstidx => ⟨_, funext exec_vigRstidx⟩
  | .vigEnc => ⟨_, funext exec_vigEnc⟩
  | .vigDec => ⟨_, funext exec_vigDec⟩
  | .xorEnc => ⟨_, funext exec_xorEnc⟩
  | .xorDec => ⟨_, funext exec_xorDec⟩

/-- R216 (a): the length check stands in the common start, before the command's own rule. -/
theorem endsWith_lengthError_of_oversize (hreads : readsIbuf i = true) (hover : s.cfg.inMax < s.ilen.toNat) :
    EndsWith i .lengthError s := by
  obtain ⟨body, hexec⟩ := exec_eq_runCommand i
  exact ⟨_, (congrFun hexec s).trans (runCommand_oversize hreads hover), start_raise_failed ..⟩

/-- Settles O18: (a) is the common start's check and (b) the key load's own; the other three commands have no LengthError in
their rows. -/
theorem oversizeOperandsEndWithLengthError : Obligations.OversizeOperandsEndWithLengthError := by
  refine ⟨fun i s => endsWith_lengthError_of_oversize, fun i s hload _ _ hk => keyLoad_tooLong hload hk, ?noOperand⟩
  case noOperand =>
    intro i s t hi h hcode
    have hmem : .lengthError ∈ kindsOf i := (failed_of_ecode h hcode).1
    rcases hi with rfl | rfl | rfl <;> exact absurd hmem (by decide)

/-! ### The table of kinds -/

/-- R211, its table read column by column. -/
theorem mem_kindsOf : k ∈ kindsOf i ↔
    (k = .lengthError ∧ readsIbuf i = true) ∨ (k = .invalidArgument ∧ (i = .ksfSet ∨ i = .vigSetpw)) ∨
    (k = .notInitialized ∧ (i = .ksfGet ∨ i = .vigEnc ∨ i = .vigDec)) ∨ (k = .malformedInput ∧ i = .cobsDec) := by
  cases i <;> simp [kindsOf, readsIbuf, or_comm]

/-- R143: `01 00 01` has a zero between two bytes that are not zero. -/
theorem cobsDec_endsWith_malformed_of_load (s : State) (hfits : 3 ≤ s.cfg.inMax) :
    EndsWith .cobsDec .malformedInput (s.load [1, 0, 1]) := by
  refine (cobsDec_endsWith_malformed_iff (s := s.load [1, 0, 1]) hfits).mpr ?_
  rw [load_operand (by decide)]
  rfl

/-- R211: each kind of a command's row is met. The reset block has no operand and no key; the other two columns need an ILEN
past IN_MAX and a malformed operand. -/
theorem exists_endsWith_of_mem_kindsOf (h : k ∈ kindsOf i) : ∃ s, BlockInv s ∧ EndsWith i k s := by
  have hreset := resetMeetsTheInvariant
  rcases mem_kindsOf.mp h with ⟨rfl, hreads⟩ | ⟨rfl, hload⟩ | ⟨rfl, rfl | hvig⟩ | ⟨rfl, rfl⟩
  · exact ⟨_, hreset.withIlen 65535, endsWith_lengthError_of_oversize hreads (by decide)⟩
  · exact ⟨_, hreset, keyLoad_empty hload rfl⟩
  · exact ⟨_, hreset, ksfGet_uninitialized rfl⟩
  · exact ⟨_, hreset, vigenere_uninitialized hvig rfl (Nat.zero_le _)⟩
  · exact ⟨_, hreset.load (by decide), cobsDec_endsWith_malformed_of_load _ (by decide)⟩

/-- Settles O17: the kinds of a row are met from reset, and ECODE tells that an end is one of them. -/
theorem commandsEndWithTheTabledKinds : Obligations.CommandsEndWithTheTabledKinds := by
  intro i k
  constructor
  · intro hk
    obtain ⟨s, hinv, t, hexec, hfailed⟩ := exists_endsWith_of_mem_kindsOf hk
    exact ⟨s, t, hinv, hexec, hfailed.err_eq_true, by rw [hfailed.status]⟩
  · rintro ⟨s, t, -, hexec, -, hcode⟩
    exact (failed_of_ecode hexec hcode).1

/-! ### A failed command run again -/

/-- R166: KSF_GET failed for want of a key, and `raise` loads none. -/
theorem getElement_fails_again {v : Byte} (herr : t.status.err = true) (h : getElement i (s.start v) = .ok t) :
    getElement i (t.start v) = .ok t := by
  rcases getElement_ok.mp h with ⟨hk, rfl⟩ | ⟨-, -, rfl⟩
  · exact getElement_ok.mpr (.inl ⟨hk, (raise_again ..).symm⟩)
  · cases herr

/-- R182, R183: VIG_ENC and VIG_DEC failed for want of a key too: a rule that got past that test ends with `done`. -/
theorem vigenere_fails_again {f : Byte → Byte → Byte} {v : Byte} (herr : t.status.err = true)
    (h : vigenere i f (s.start v) = .ok t) : vigenere i f (t.start v) = .ok t := by
  rcases vigenere_ok h with ⟨hk, rfl⟩ | ⟨-, _, _, -, -, -, rfl⟩
  · exact (if_pos hk).trans (congrArg Except.ok (raise_again ..))
  · cases herr

/-- Settles O19: the commands that use the keystream failed without moving the cursor; the others are idempotent at either
end. -/
theorem failedCommandFailsAgain : Obligations.FailedCommandFailsAgain := by
  intro i s t h herr
  by_cases hget : i = .ksfGet
  · subst hget
    exact exec_again (funext exec_ksfGet) (getElement_fails_again herr) h
  · by_cases hvig : i = .vigEnc ∨ i = .vigDec
    · obtain ⟨f, hexec⟩ := exec_vigenere hvig
      exact exec_again (funext hexec) (vigenere_fails_again herr) h
    · obtain ⟨henc, hdec⟩ := not_or.mp hvig
      exact otherCommandsAreIdempotent i s t hget henc hdec h

end Sys2Proof.Machine
end

section
/-! Reset (rule R240): the step that takes it, whatever the block was doing, and the values it leaves (R36). -/

namespace Sys2Proof.Machine

/-- R240: reset is not one of the host's two primitives, so BUSY is not tested: the step has this one end in every state. -/
theorem step_reset {s : State} {rest : List HostAction} (h : s.inputs = .reset :: rest) :
    step s = .next (State.afterReset s.cfg (s.resets + 1) rest s.returned) :=
  step_cons h

/-- R24, R35: the word of STATUS is zero when its fields are and no key is stored, since KRDY is computed from KLEN. -/
theorem statusWord_eq_zero {s : State} (hstatus : s.status = Status.clear) (hklen : s.klen = 0) : s.statusWord = 0 := by
  have hkrdy : s.krdy = false := decide_eq_false (not_not_intro hklen)
  rw [State.statusWord, hstatus, hkrdy]
  rfl

/-- Settles O11: the step leaves `State.afterReset`, whose memories hold no written byte; its other fields are as set. -/
theorem resetActionClearsTheBlock : Obligations.ResetActionClearsTheBlock := fun _ _ hin =>
  ⟨_, step_reset hin, rfl, statusWord_eq_zero rfl rfl, rfl, rfl, rfl, rfl, rfl, fun b j => afterReset_byteAt _ _ _ _ b j,
    rfl, rfl, rfl, rfl⟩

end Sys2Proof.Machine
end
